-- ==== Sys2Proof/Word.lean ====
section
/-! DEFINITION. The widths of the block's values: an 8-bit cell or register, a 5-bit symbol, the 40-bit checksum
accumulator, and an offset of the register map. -/

namespace Sys2Proof

/-- The content of a register or of a symbol buffer cell (R6: "cell width", 8 bits). -/
abbrev Byte := BitVec 8

/-- A 5-bit value, 0 to 31: the group, value or symbol of the glossary of `00_scope.md`. -/
abbrev Group := BitVec 5

/-- The checksum accumulator `C` (R14, 40 bits). -/
abbrev Acc := BitVec 40

/-- An offset from `BASE`: the map of R26 is 0x000 to 0x1FF, nine bits. -/
abbrev Offset := BitVec 9

end Sys2Proof
end

