-- ==== Sys2Proof/Config.lean ====
section
/-! DEFINITION. What one implementation fixes (R6), and the one value the spec leaves free: the content of the symbol
buffer after a reset (R103). -/

namespace Sys2Proof

/-- A table of the five generator terms `PM_GEN[0..4]` of the checksum (R6, R64). The checksum functions take it as
an argument and the commands take it from the instance's state, so that what does not depend on the values can be
stated for every table. -/
structure GenTable where
  g0 : Acc
  g1 : Acc
  g2 : Acc
  g3 : Acc
  g4 : Acc
  deriving DecidableEq, Repr

/-- `SB_DEPTH`, the number of cells of `SB`: the value R6 takes. DESIGN CHOICE, unsafe: log entry 12. -/
def Config.sbDepth : Nat := 128

/-- `DEFAULT_PREFIX` (R6, R87): the prefix the decode sequence uses when the string has no colon. Absent.
DESIGN CHOICE, safe: log entry 11. -/
def Config.defaultPrefix : Option (List Byte) := none

/-- FREE VALUE (R18, R103): what cell `i` of `SB` holds after the `n`-th reset, as `Config.sbAfterReset n i`. It has
no body: any 8-bit value, possibly different in each cell and after each reset. DESIGN CHOICE, safe: log entry 3. -/
opaque Config.sbAfterReset : Nat → Nat → Byte

end Sys2Proof
end

