-- ==== Sys2Proof/Machine/Bus.lean ====
section
/-! DEFINITION. The host's side of the register interface: the named registers, the default register map (R26) and
what the host can do to the block (R21, R102). -/

namespace Sys2Proof.Machine

/-- What an offset of the register map names (R7, R26). -/
inductive HostReg where
  | cmd
  | status
  | einfo
  | slen
  | arg0
  | arg1
  | res0
  | res1
  /-- `C0`, bits 7:0 of `C` (R14). -/
  | c0
  | c1
  | c2
  | c3
  /-- `C4`, bits 39:32 of `C` (R14). -/
  | c4
  /-- The cell `SB[i]`; the map yields it only for `i` below `SB_DEPTH` (R30). -/
  | sb (i : Nat)
  /-- A reserved offset (R22, R26). -/
  | reserved
  deriving DecidableEq, Repr

/-- One thing the host or the environment does to the block. -/
inductive HostEvent where
  /-- `HostWrite` of the value `v` at an offset (R21). -/
  | write (off : Offset) (v : Byte)
  /-- `HostRead` at an offset (R21). -/
  | read (off : Offset)
  /-- The reset event, between commands (R102). -/
  | reset
  deriving DecidableEq, Repr

/-- The registers below offset 0x100 (R26). -/
def HostReg.ofLowOffset : Nat → HostReg
  | 0x00 => .cmd
  | 0x01 => .status
  | 0x02 => .einfo
  | 0x03 => .slen
  | 0x04 => .arg0
  | 0x05 => .arg1
  | 0x06 => .res0
  | 0x07 => .res1
  | 0x08 => .c0
  | 0x09 => .c1
  | 0x0A => .c2
  | 0x0B => .c3
  | 0x0C => .c4
  | _ => .reserved

/-- The default register map (R26): what an offset names. DEDUCED, safe: log entry 9. -/
def HostReg.ofOffset (off : Offset) : HostReg :=
  if off.toNat < 0x100 then HostReg.ofLowOffset off.toNat
  else if off.toNat - 0x100 < Config.sbDepth then .sb (off.toNat - 0x100)
  else .reserved

/-- The offset of a named register (R26); a cell that does not exist, and `reserved`, have none. -/
def HostReg.offset? : HostReg → Option Offset
  | .cmd => some 0x000
  | .status => some 0x001
  | .einfo => some 0x002
  | .slen => some 0x003
  | .arg0 => some 0x004
  | .arg1 => some 0x005
  | .res0 => some 0x006
  | .res1 => some 0x007
  | .c0 => some 0x008
  | .c1 => some 0x009
  | .c2 => some 0x00A
  | .c3 => some 0x00B
  | .c4 => some 0x00C
  | .sb i => if i < Config.sbDepth then some (BitVec.ofNat 9 (0x100 + i)) else none
  | .reserved => none

/-- The registers of R21's `HostWrite`: the others are read-only or reserved (R22). -/
def HostReg.writable : HostReg → Bool
  | .cmd => true
  | .slen => true
  | .arg0 => true
  | .arg1 => true
  | .sb i => decide (i < Config.sbDepth)
  | .status => false
  | .einfo => false
  | .res0 => false
  | .res1 => false
  | .c0 => false
  | .c1 => false
  | .c2 => false
  | .c3 => false
  | .c4 => false
  | .reserved => false

/-- The registers of R21's `HostRead`. -/
def HostReg.readable : HostReg → Bool
  | .reserved => false
  | .sb i => decide (i < Config.sbDepth)
  | .cmd => true
  | .status => true
  | .einfo => true
  | .slen => true
  | .arg0 => true
  | .arg1 => true
  | .res0 => true
  | .res1 => true
  | .c0 => true
  | .c1 => true
  | .c2 => true
  | .c3 => true
  | .c4 => true

end Sys2Proof.Machine
end

