-- ==== Sys2Proof/Syntax.lean ====
section
/-! DEFINITION. The commands of the block (R32): one constructor per row of `opcode_table.json`. -/

namespace Sys2Proof

/-- The fifteen commands. A command word carries no operand (R35): every operand is a fixed register or the symbol
buffer, so no constructor has a field. -/
inductive Instr where
  /-- Word 0x00, do nothing (R80). -/
  | nop
  /-- Word 0x01, the registers to their reset values (R81). -/
  | clr
  /-- Word 0x02, encode one value (R50). -/
  | b32e
  /-- Word 0x03, decode one character (R52). -/
  | b32d
  /-- Word 0x04, encode the buffer in place (R51). -/
  | b32es
  /-- Word 0x05, decode the buffer in place (R53). -/
  | b32ds
  /-- Word 0x06, bytes to 5-bit groups (R56). -/
  | rg85
  /-- Word 0x07, 5-bit groups to bytes (R57). -/
  | rg58
  /-- Word 0x08, start a checksum (R68). -/
  | pminit
  /-- Word 0x09, absorb one symbol (R69). -/
  | pmpush
  /-- Word 0x0A, absorb the buffer (R70). -/
  | pmrun
  /-- Word 0x0B, close a checksum and append it (R71). -/
  | pmembed
  /-- Word 0x0C, test the residue (R72). -/
  | pmcheck
  /-- Word 0x0D, build a version byte (R76). -/
  | venc
  /-- Word 0x0E, take a version byte apart (R77). -/
  | vdec
  deriving DecidableEq, Repr

end Sys2Proof
end

