-- ==== Sys2Proof/WellFormed.lean ====
section
/-! DEFINITION. Which commands and which host transactions are well formed. -/

namespace Sys2Proof

/-- Every command is well formed: the command word carries no register number, immediate, address or mode (R35), so
there is no operand that could be out of range. -/
def Instr.wellFormed : Instr → Bool
  | .nop => true
  | .clr => true
  | .b32e => true
  | .b32d => true
  | .b32es => true
  | .b32ds => true
  | .rg85 => true
  | .rg58 => true
  | .pminit => true
  | .pmpush => true
  | .pmrun => true
  | .pmembed => true
  | .pmcheck => true
  | .venc => true
  | .vdec => true

/-- The transactions of R21's repertoire: a write of a writable register or cell, a read of a register or cell.
The machine gives the others R22's meaning (a write is ignored, a read returns 0x00). -/
def Machine.HostEvent.wellFormed : Machine.HostEvent → Bool
  | .write off _ => (Machine.HostReg.ofOffset off).writable
  | .read off => (Machine.HostReg.ofOffset off).readable
  | .reset => true

end Sys2Proof
end

