-- ==== Sys2Proof/Decode.lean ====
section
/-! DEFINITION. The command word (R32, R33): the decoder, total on every byte, and the encoder written from R32's
table. -/

namespace Sys2Proof

/-- Why a word encodes no command (R34). -/
inductive DecodeReject where
  /-- A reserved bit, 7:4, is set: the words 0x10 to 0xFF. -/
  | reservedBitSet
  /-- The reserved opcode 0xF with the reserved bits clear: the word 0x0F. -/
  | reservedOpcode
  deriving DecidableEq, Repr

/-- The opcode map of R32 on the field `opc`. -/
def decodeOpcode : Nat → Except DecodeReject Instr
  | 0x0 => .ok .nop
  | 0x1 => .ok .clr
  | 0x2 => .ok .b32e
  | 0x3 => .ok .b32d
  | 0x4 => .ok .b32es
  | 0x5 => .ok .b32ds
  | 0x6 => .ok .rg85
  | 0x7 => .ok .rg58
  | 0x8 => .ok .pminit
  | 0x9 => .ok .pmpush
  | 0xA => .ok .pmrun
  | 0xB => .ok .pmembed
  | 0xC => .ok .pmcheck
  | 0xD => .ok .venc
  | 0xE => .ok .vdec
  | _ => .error .reservedOpcode

/-- R33's decoder: the reserved field `rsv` = 7:4 must be zero, the field `opc` = 3:0 selects the command. -/
def decode (w : Byte) : Except DecodeReject Instr :=
  if w.extractLsb' 4 4 = 0 then decodeOpcode (w.extractLsb' 0 4).toNat else .error .reservedBitSet

/-- The command word of R32's table. -/
def encode : Instr → Byte
  | .nop => 0x00
  | .clr => 0x01
  | .b32e => 0x02
  | .b32d => 0x03
  | .b32es => 0x04
  | .b32ds => 0x05
  | .rg85 => 0x06
  | .rg58 => 0x07
  | .pminit => 0x08
  | .pmpush => 0x09
  | .pmrun => 0x0A
  | .pmembed => 0x0B
  | .pmcheck => 0x0C
  | .venc => 0x0D
  | .vdec => 0x0E

/-- The host's view of the decoder: the command of a row of `opcode_table.json` from its bits. The command word has
one length, 8 bits (R33); what is longer is no command word. DESIGN CHOICE, safe: log entry 18. -/
def decodeTableWord (nbits w : Nat) : Option Instr :=
  if nbits ≤ 8 then (decode (BitVec.ofNat 8 (w % 2 ^ nbits))).toOption else none

end Sys2Proof
end

