-- ==== Sys2Proof/Machine/Generator.lean ====
section
/-! DEFINITION. The default generator terms of the checksum (R64). -/

namespace Sys2Proof.Machine

/-- `PM_GEN[0..4]`, the default values of R64. UNVERIFIED, unsafe: log entry 6. -/
def pmGen : GenTable where
  g0 := 0x98F2BC8E61
  g1 := 0x79B76D99E2
  g2 := 0xF33E5FB3C4
  g3 := 0xAE2EABE2A8
  g4 := 0x1E4F43E470

end Sys2Proof.Machine
end

