-- ==== Sys2Proof/Machine/State.lean ====
section
/-! DEFINITION. The architectural state of R7, the host's side of one instance, the reasons a step can stop, and the
state after reset (R18). -/

namespace Sys2Proof.Machine

/-- The error kinds a command can raise, the nonzero values of `ECODE` (R91). -/
inductive ErrorKind where
  | invalidCharacter
  | mixedCaseError
  | invalidPadding
  | checksumMismatch
  | unsupportedLength
  | unsupportedType
  | invalidValue
  | capacityExceeded
  | illegalCommand
  deriving DecidableEq, Repr

/-- The symbol buffer `SB` (R15, R19): one pair (index, content) per cell, indices rising. Every cell of R15 is
listed; an index that is not listed names no cell (R30). DESIGN CHOICE, safe: log entry 4. -/
abbrev Memory := List Host.Cell

/-- The one form a symbol buffer has: exactly the indices 0 to `SB_DEPTH - 1`, rising (R15, R30). -/
def Memory.wf (m : Memory) : Bool := m.map Prod.fst == List.range Config.sbDepth

/-- The symbol buffer after the `n`-th reset: every cell holds a free value (R103). -/
def Memory.afterReset (n : Nat) : Memory :=
  (List.range Config.sbDepth).map fun i => (i, Config.sbAfterReset n i)

/-- The architectural state of one instance: exactly the components of R7. `STATUS` is the view of `ecode` that R7
allows a model to compute (`Sys2Proof.Machine.statusByte`). -/
structure Block where
  /-- `CMD`, the last command word written (R8). -/
  cmd : Byte
  /-- `ECODE`, the one stored field of `STATUS` (R9): `none` is OK, code 0. DEDUCED, safe: log entry 19. -/
  ecode : Option ErrorKind
  /-- `EINFO` (R10). -/
  einfo : Byte
  /-- `SLEN`, the number of valid cells of `SB` (R11). -/
  slen : Byte
  /-- `ARG0` (R12). -/
  arg0 : Byte
  /-- `ARG1` (R12). -/
  arg1 : Byte
  /-- `RES0` (R13). -/
  res0 : Byte
  /-- `RES1` (R13). -/
  res1 : Byte
  /-- `C`, the checksum accumulator (R14). -/
  c : Acc
  /-- `SB`, the symbol buffer (R15). -/
  sb : Memory
  deriving DecidableEq, Repr

/-- One instance of the block with its one host (R3, R28). The fields beside the block are the model's own: what the
host still has to do, what its reads returned, the number of resets so far, which the free value reads, and the
instance's parameter `PM_GEN`. -/
structure State extends Block where
  /-- The host's transactions that have not taken effect yet, in program order (R27). DESIGN CHOICE, safe: log entry 1. -/
  pending : List HostEvent
  /-- The values the host's reads returned, oldest first (R21). DESIGN CHOICE, safe: log entry 1. -/
  replies : List Byte
  /-- The number of the last reset, the argument of `Config.sbAfterReset`. DESIGN CHOICE, safe: log entry 3. -/
  resets : Nat
  /-- `PM_GEN[0..4]`, the parameter of the instance (R6): fixed in it and read-only (R29), so that what holds of every
  state holds of every table. DESIGN CHOICE, safe: log entry 21. -/
  gen : GenTable
  deriving DecidableEq, Repr

/-- The reasons the machine stops with a fault: there are none. A failed command is a next state with `ECODE` set
(R94); the block has no error that stands for a hardware fault "and a model must not add one" (R100). DEDUCED, safe: log entry 10. -/
inductive Fault where
  deriving DecidableEq, Repr

/-- The reasons the model gives an instruction no meaning. -/
inductive Refusal where
  /-- Raised by an arm of `exec` whose command has no meaning yet, under the command's mnemonic (safe). No arm of
  this model raises it. -/
  | notModelled (mnemonic : String)
  deriving DecidableEq, Repr

/-- What a command and a step answer. -/
abbrev Outcome := Host.Outcome State Fault Refusal

/-- The block after the `n`-th reset (R18, R102): the values R18 gives, and `SB` free. -/
def Block.afterReset (n : Nat) : Block where
  cmd := 0x00
  ecode := none
  einfo := 0x00
  slen := 0x00
  arg0 := 0x00
  arg1 := 0x00
  res0 := 0x00
  res1 := 0x00
  c := 1
  sb := Memory.afterReset n

/-- The machine right after its first reset (R18), with a host that has not issued anything yet, and with the default
generator terms (R6, R64). -/
def State.reset : State where
  toBlock := Block.afterReset 0
  pending := []
  replies := []
  resets := 0
  gen := pmGen

end Sys2Proof.Machine
end

