-- ==== Sys2Proof/Machine/Ops.lean ====
section
/-! DEFINITION. The operations every command is made of: one cell of the symbol buffer (R20), the valid part of the
buffer, and how a command ends, with an error (R94) or without (R95). -/

namespace Sys2Proof.Machine

/-- `MemRead(i, 1)` (R20): the content of `SB[i]`; nothing for an index that names no cell (R30). -/
def Memory.read (m : Memory) (i : Nat) : Option Byte := (m.find? fun cell => cell.1 == i).map Prod.snd

/-- `MemWrite(i, 1, v)` (R20): sets `SB[i]`; an index that names no cell is never written (R30). -/
def Memory.write (m : Memory) (i : Nat) (v : Byte) : Memory :=
  m.map fun cell => if cell.1 = i then (i, v) else cell

/-- `SB[base + k] <- vs[k]` for every `k`, in rising order. -/
def Memory.writeFrom (m : Memory) (base : Nat) : List Byte → Memory
  | [] => m
  | v :: vs => (m.write base v).writeFrom (base + 1) vs

/-- `[SB[0], ..., SB[n-1]]`. Of an index that names no cell there is no content to list.
DESIGN CHOICE, safe: log entry 14. -/
def Memory.firstCells (m : Memory) (n : Nat) : List Byte := (List.range n).filterMap m.read

/-- `SBV` (section 5 of `00_scope.md`): the valid part of the buffer. -/
def State.sbv (s : State) : List Byte := s.sb.firstCells s.slen.toNat

/-- The operand of `raise Kind(info)`. -/
structure Raise where
  kind : ErrorKind
  info : Byte
  deriving DecidableEq, Repr

/-- `ECODE` and `EINFO`, which every command writes together (R9, R10). -/
def State.withStatus (s : State) (e : Option ErrorKind) (info : Byte) : State := { s with ecode := e, einfo := info }

/-- `CMD <- w` (R8). -/
def State.withCmd (s : State) (w : Byte) : State := { s with cmd := w }

/-- The result of a sequence command: the cells from `base` on replaced by `vs`, the others kept (R15). -/
def State.withCells (s : State) (base : Nat) (vs : List Byte) : State := { s with sb := s.sb.writeFrom base vs }

/-- Error entry (R94), what `raise Kind(info)` does: `ECODE` and `EINFO` are written and nothing else changes. `CMD`
already holds the word written. There is no saved context, no vector and no return command (R97). -/
def raise (r : Raise) (s : State) : Outcome := .next (s.withStatus (some r.kind) r.info)

/-- Successful completion (R95): after a command's own writes, `ECODE` and `EINFO` are cleared. This is also the one
way an earlier error is cleared (R97). -/
def succeed (s : State) : Outcome := .next (s.withStatus none 0)

/-- How every command ends: a raise aborts it on the state it found (R94), otherwise its writes stand (R95). -/
def complete (s : State) : Except Raise State → Outcome
  | .error r => raise r s
  | .ok t => succeed t

end Sys2Proof.Machine
end

