-- ==== Sys2Proof/Machine/Operands.lean ====
section
/-! DEFINITION. The operand forms of the commands (R35, R44): a 5-bit value in `ARG0`, the valid part of the buffer,
its cells as 5-bit groups; each with the check that its rule makes before anything is written (R92). -/

namespace Sys2Proof.Machine

/-- An index of a cell as `EINFO` records it (R93). -/
def indexInfo (i : Nat) : Byte := BitVec.ofNat 8 i

/-- The 5-bit value a byte of 0 to 31 holds. -/
def toGroup (b : Byte) : Group := b.setWidth 5

/-- Whether a byte is a 5-bit group (R44). -/
def isGroup (b : Byte) : Bool := decide (b.toNat ≤ 31)

/-- A scalar operand that must be a 5-bit value (B32E, PMPUSH): above 31 it raises `InvalidValue(0)` (R91). -/
def scalarGroup (b : Byte) : Except Raise Group :=
  if isGroup b then .ok (toGroup b) else .error ⟨.invalidValue, 0⟩

/-- The capacity check: `needed` cells must fit in `SB` (R92). It comes before any access to a cell. -/
def checkCapacity (needed : Nat) : Except Raise Unit :=
  if needed ≤ Config.sbDepth then .ok () else .error ⟨.capacityExceeded, 0⟩

/-- The first index whose element satisfies `bad` raises `kind` at that index; if there is none, the check passes. -/
def checkCells (kind : ErrorKind) (bad : Byte → Bool) (xs : List Byte) : Except Raise Unit :=
  match xs.findIdx? bad with
  | some i => .error ⟨kind, indexInfo i⟩
  | none => .ok ()

/-- The operand of B32ES, B32DS, RG58 and PMRUN: `SBV`, after the entry check `SLEN <= SB_DEPTH` (R11, R92). -/
def bufferOperand (s : State) : Except Raise (List Byte) := do
  checkCapacity s.slen.toNat
  return s.sbv

/-- `SBV` as 5-bit groups (B32ES, RG58, PMRUN): a cell above 31 raises `InvalidValue` at the lowest such index, over
the whole operand and before anything is written; it is never masked (R92). -/
def groupsOperand (s : State) : Except Raise (List Group) := do
  let xs ← bufferOperand s
  checkCells .invalidValue (fun b => !isGroup b) xs
  return xs.map toGroup

end Sys2Proof.Machine
end

