-- ==== Sys2Proof/Machine/Base32.lean ====
section
/-! DEFINITION. The base32 alphabet units: the alphabet (R36), `value_to_char` (R47), `char_to_value` (R48),
`case_of` (R49), and the commands B32E, B32D, B32ES, B32DS. -/

namespace Sys2Proof.Machine

/-- `ALPHABET` as character codes (R36): q p z r y 9 x 8 g f 2 t v d w 0 s 3 j n 5 4 k h c e 6 m u a 7 l. The codes
are ASCII. UNVERIFIED, unsafe: log entry 7. -/
def alphabet : List Byte :=
  [0x71, 0x70, 0x7A, 0x72, 0x79, 0x39, 0x78, 0x38, 0x67, 0x66, 0x32, 0x74, 0x76, 0x64, 0x77, 0x30,
   0x73, 0x33, 0x6A, 0x6E, 0x35, 0x34, 0x6B, 0x68, 0x63, 0x65, 0x36, 0x6D, 0x75, 0x61, 0x37, 0x6C]

/-- `value_to_char(v)` (R47). -/
def valueToChar (v : Group) : Byte := alphabet[v.toNat]'v.isLt

/-- The case a letter has (R49). -/
inductive LetterCase where
  | upper
  | lower
  deriving DecidableEq, Repr

/-- `case_of(ch)` (R49): only ASCII letters have a case, whether or not they are in the alphabet. -/
def caseOf (ch : Byte) : Option LetterCase :=
  if 0x41 ≤ ch ∧ ch ≤ 0x5A then some .upper
  else if 0x61 ≤ ch ∧ ch ≤ 0x7A then some .lower
  else none

/-- An upper-case ASCII letter folded to lower case, every other code as it is (R48, and R85 step 2). -/
def toLower (ch : Byte) : Byte := if 0x41 ≤ ch ∧ ch ≤ 0x5A then ch + 0x20 else ch

/-- `char_to_value(ch)` (R48): the value whose character is the folded code, or `none` for `invalid`. -/
def charToValue (ch : Byte) : Option Group :=
  (alphabet.findIdx? fun a => a == toLower ch).map (BitVec.ofNat 5)

/-- Pass 1 of B32DS (R53): the lowest index holding a letter whose case differs from the case of the first letter. -/
def mixedCaseIndex (xs : List Byte) : Option Nat :=
  match xs.findSome? caseOf with
  | none => none
  | some first => xs.findIdx? fun ch => (caseOf ch).any fun k => k != first

/-- The case check of B32DS, over the whole buffer (R53 pass 1, R96 item 3). -/
def checkCase (xs : List Byte) : Except Raise Unit :=
  match mixedCaseIndex xs with
  | some i => .error ⟨.mixedCaseError, indexInfo i⟩
  | none => .ok ()

/-- B32E (R50): `RES0 <- value_to_char(ARG0)`, `InvalidValue` above 31. -/
def execB32e (s : State) : Outcome := complete s do
  let v ← scalarGroup s.arg0
  return { s with res0 := valueToChar v }

/-- B32D (R52): `RES0 <- char_to_value(ARG0)`, `InvalidCharacter` where that is invalid. -/
def execB32d (s : State) : Outcome := complete s <|
  match charToValue s.arg0 with
  | some v => .ok { s with res0 := v.setWidth 8 }
  | none => .error ⟨.invalidCharacter, 0⟩

/-- B32ES (R51): the groups of `SBV` to characters, in place. -/
def execB32es (s : State) : Outcome := complete s do
  let gs ← groupsOperand s
  return s.withCells 0 (gs.map valueToChar)

/-- B32DS (R53): case check, then alphabet membership, then the characters of `SBV` to groups, in place. -/
def execB32ds (s : State) : Outcome := complete s do
  let xs ← bufferOperand s
  checkCase xs
  checkCells .invalidCharacter (fun ch => (charToValue ch).isNone) xs
  return s.withCells 0 ((xs.filterMap charToValue).map (·.setWidth 8))

end Sys2Proof.Machine
end

