-- ==== Sys2Proof/Machine/Control.lean ====
section
/-! DEFINITION. The control commands NOP and CLR, and the reaction to an illegal command word. -/

namespace Sys2Proof.Machine

/-- NOP (R80): nothing but the status. -/
def execNop (s : State) : Outcome := complete s (.ok s)

/-- CLR (R81): the registers to their reset values; `CMD` holds the word just written and `SB` is kept. -/
def execClr (s : State) : Outcome :=
  complete s (.ok { s with slen := 0, arg0 := 0, arg1 := 0, res0 := 0, res1 := 0, c := 1 })

/-- An illegal command word (R82), once it stands in `CMD`: `raise IllegalCommand(0)`. -/
def illegalCommand (s : State) : Outcome := complete s (.error ⟨.illegalCommand, 0⟩)

end Sys2Proof.Machine
end

