-- ==== Sys2Proof/Machine/Polymod.lean ====
section
/-! DEFINITION. The checksum unit: `pm_step` (R65), `polymod` (R66), the residue (R67),
`split40` (R41), and the commands PMINIT, PMPUSH, PMRUN, PMEMBED, PMCHECK, which take the generator terms of
the instance (R6, R64) from its state. -/

namespace Sys2Proof.Machine

/-- `x` where the bit is 1, zero where it is 0. -/
def gated (b : Bool) (x : Acc) : Acc := if b then x else 0

/-- The XOR of the generator terms whose bit of `c0` is 1 (R65). -/
def feedback (g : GenTable) (c0 : Group) : Acc :=
  gated (c0.getLsbD 0) g.g0 ^^^ gated (c0.getLsbD 1) g.g1 ^^^ gated (c0.getLsbD 2) g.g2 ^^^
    gated (c0.getLsbD 3) g.g3 ^^^ gated (c0.getLsbD 4) g.g4

/-- `pm_step(c, v)` (R65): `c0 = c[39:35]`, the low 35 bits shifted up by 5 with `v` below them, then the feedback. -/
def pmStep (g : GenTable) (c : Acc) (v : Group) : Acc :=
  (((c &&& 0x07FFFFFFFF) <<< 5) ||| v.setWidth 40) ^^^ feedback g (c.extractLsb' 35 5)

/-- `polymod(c, vs)` (R66): the fold of `pm_step`, first element first. -/
def polymod (g : GenTable) (c : Acc) (vs : List Group) : Acc := vs.foldl (pmStep g) c

/-- `residue(c)` (R67): zero for a valid message. -/
def residue (c : Acc) : Acc := c ^^^ 1

/-- `split40(x)` (R41): eight 5-bit groups, most significant first. -/
def split40 (x : Acc) : List Group := (List.range 8).map fun i => x.extractLsb' (5 * (7 - i)) 5

/-- PMINIT (R68): `C <- 1`. -/
def execPminit (s : State) : Outcome := complete s (.ok { s with c := 1 })

/-- PMPUSH (R69): absorb the 5-bit value in `ARG0`; `InvalidValue` above 31. -/
def execPmpush (s : State) : Outcome := complete s do
  let v ← scalarGroup s.arg0
  return { s with c := pmStep s.gen s.c v }

/-- PMRUN (R70): absorb the groups of `SBV`, continuing from `C`. -/
def execPmrun (s : State) : Outcome := complete s do
  let gs ← groupsOperand s
  return { s with c := polymod s.gen s.c gs }

/-- PMEMBED (R71): absorb eight zero groups into `C`, append the residue as eight groups after `SB[SLEN-1]`. -/
def execPmembed (s : State) : Outcome := complete s do
  checkCapacity (s.slen.toNat + 8)
  let t := polymod s.gen s.c (List.replicate 8 0)
  let groups := split40 (residue t)
  return { s.withCells s.slen.toNat (groups.map (·.setWidth 8)) with slen := s.slen + 8, c := t }

/-- PMCHECK (R72): `ChecksumMismatch` unless `C = 1`; only the status is written. -/
def execPmcheck (s : State) : Outcome := complete s <|
  if s.c = 1 then .ok s else .error ⟨.checksumMismatch, 0⟩

end Sys2Proof.Machine
end

