-- ==== Sys2Proof/Machine/Regroup.lean ====
section
/-! DEFINITION. The bit regrouper: `regroup` on the bit stream (R55), the same as an algorithm, and the commands RG85
and RG58. -/

namespace Sys2Proof.Machine

/-- `x` as `w` binary digits, most significant first. -/
def bitsMsb (w x : Nat) : List Bool := (List.range w).map fun k => x.testBit (w - 1 - k)

/-- The number whose binary digits, most significant first, are `bs`. -/
def ofBitsMsb (bs : List Bool) : Nat := bs.foldl (fun n b => 2 * n + b.toNat) 0

/-- The bit string `B` of R55: each value as `w` digits, in index order. -/
def bitStream (w : Nat) (xs : List Nat) : List Bool := xs.flatMap (bitsMsb w)

/-- The first `q` groups of `w` bits of a stream: output group `j` is the number at `B[j*w .. j*w + w - 1]`. -/
def slices (w : Nat) : Nat → List Bool → List Nat
  | 0, _ => []
  | q + 1, bs => ofBitsMsb (bs.take w) :: slices w q (bs.drop w)

/-- The groups that are complete in the stream, `q = floor(T / to)` of them (R55). -/
def wholeGroups (wi wo : Nat) (xs : List Nat) : List Nat :=
  slices wo ((bitStream wi xs).length / wo) (bitStream wi xs)

/-- The leftover bits `B[q*to .. T-1]` (R55). -/
def leftover (wi wo : Nat) (xs : List Nat) : List Bool :=
  (bitStream wi xs).drop ((bitStream wi xs).length / wo * wo)

/-- `regroup` with `pad = true` (R55): a leftover is completed with zero bits and emitted. Never fails. -/
def regroupPadded (xs : List Nat) (wi wo : Nat) : List Nat :=
  let rest := leftover wi wo xs
  if rest.length = 0 then wholeGroups wi wo xs
  else wholeGroups wi wo xs ++ [ofBitsMsb (rest ++ List.replicate (wo - rest.length) false)]

/-- `regroup` with `pad = false` (R55, R60): `none` for `invalid_padding`, when the leftover has `from` or more bits or a
bit that is 1. -/
def regroupExact (xs : List Nat) (wi wo : Nat) : Option (List Nat) :=
  let rest := leftover wi wo xs
  if wi ≤ rest.length ∨ rest.any id then none else some (wholeGroups wi wo xs)

/-- `regroup(xs, from, to, pad)` (R55), stated on the stream; `none` for `invalid_padding`. -/
def regroup (xs : List Nat) (wi wo : Nat) (pad : Bool) : Option (List Nat) :=
  if pad then some (regroupPadded xs wi wo) else regroupExact xs wi wo

/-- R55's algorithm, its inner loop `while nb >= to`: the new `nb` and `out`. `fuel` bounds the passes, of which there
are at most `nb` (R107). -/
def emitGroups (wo : Nat) : (fuel acc nb : Nat) → (out : List Nat) → Nat × List Nat
  | 0, _, nb, out => (nb, out)
  | fuel + 1, acc, nb, out =>
    if wo ≤ nb then emitGroups wo fuel acc (nb - wo) (out ++ [(acc >>> (nb - wo)) &&& (2 ^ wo - 1)])
    else (nb, out)

/-- R55's algorithm, its outer loop: `acc`, `nb` and `out` after the symbols `xs`. -/
def absorbSymbols (wi wo : Nat) : (xs : List Nat) → (acc nb : Nat) → (out : List Nat) → Nat × Nat × List Nat
  | [], acc, nb, out => (acc, nb, out)
  | x :: xs, acc, nb, out =>
    let acc := (acc <<< wi) ||| x
    let (nb, out) := emitGroups wo (nb + wi) acc (nb + wi) out
    absorbSymbols wi wo xs (acc &&& (2 ^ nb - 1)) nb out

/-- R55's algorithm. The commands use `regroup`; that the two agree is a statement of its own. -/
def regroupLoop (xs : List Nat) (wi wo : Nat) (pad : Bool) : Option (List Nat) :=
  let (acc, nb, out) := absorbSymbols wi wo xs 0 0 []
  if pad then
    some (if 0 < nb then out ++ [(acc <<< (wo - nb)) &&& (2 ^ wo - 1)] else out)
  else if wi ≤ nb ∨ acc ≠ 0 then none
  else some out

/-- `ceil(8n / 5)`: the number of groups RG85 makes of `n` bytes (R58). -/
def groupCount (n : Nat) : Nat := (8 * n + 4) / 5

/-- RG85 (R56): the bytes of `SBV` to 5-bit groups, in place; the result is computed from the old content. -/
def execRg85 (s : State) : Outcome := complete s do
  let m := groupCount s.slen.toNat
  checkCapacity m
  let out := regroupPadded (s.sbv.map BitVec.toNat) 8 5
  return { s.withCells 0 (out.map (BitVec.ofNat 8)) with slen := BitVec.ofNat 8 m }

/-- RG58 (R57): the groups of `SBV` to bytes, in place, with padding validation. -/
def execRg58 (s : State) : Outcome := complete s do
  let gs ← groupsOperand s
  match regroup (gs.map BitVec.toNat) 5 8 false with
  | none => .error ⟨.invalidPadding, 0⟩
  | some out => .ok { s.withCells 0 (out.map (BitVec.ofNat 8)) with slen := BitVec.ofNat 8 out.length }

end Sys2Proof.Machine
end

