-- ==== Sys2Proof/Machine/Version.lean ====
section
/-! DEFINITION. The version byte unit: the size classes (R38), `version_encode` (R74), `version_decode` (R75), and the
commands VENC and VDEC. -/

namespace Sys2Proof.Machine

/-- `SIZE` (R38): the hash length in bytes of each size class. -/
def sizeTable : List Byte := [20, 24, 28, 32, 40, 48, 56, 64]

/-- `SIZE[k]` (R38). -/
def sizeOfClass (k : BitVec 3) : Byte := sizeTable[k.toNat]'k.isLt

/-- `class_of(n)` (R38): defined for the eight legal lengths only. -/
def classOf (n : Byte) : Option (BitVec 3) := (sizeTable.findIdx? fun m => m == n).map (BitVec.ofNat 3)

/-- `version_encode(t, n)` (R74): the length is tested first, then the type; the layout is R40's. -/
def versionEncode (t n : Byte) : Except ErrorKind Byte :=
  match classOf n with
  | none => .error .unsupportedLength
  | some k => if 1 < t.toNat then .error .unsupportedType else .ok ((t <<< 3) ||| k.setWidth 8)

/-- `version_decode(b)` (R75): the type field `b[7:3]` and the declared length `SIZE[b[2:0]]`. Never fails. -/
def versionDecode (b : Byte) : BitVec 5 × Byte := (b.extractLsb' 3 5, sizeOfClass (b.extractLsb' 0 3))

/-- VENC (R76): `RES0 <- version_encode(ARG0, ARG1)`. -/
def execVenc (s : State) : Outcome := complete s <|
  match versionEncode s.arg0 s.arg1 with
  | .error k => .error ⟨k, 0⟩
  | .ok b => .ok { s with res0 := b }

/-- VDEC (R77): `RES0` and `RES1` from `version_decode(ARG0)`. -/
def execVdec (s : State) : Outcome :=
  complete s (.ok { s with res0 := (versionDecode s.arg0).1.setWidth 8, res1 := (versionDecode s.arg0).2 })

end Sys2Proof.Machine
end

