-- ==== Sys2Proof/Machine/Dispatch.lean ====
section
/-! DEFINITION. One command of the block, once its word stands in `CMD` (R8): one arm per command of R32. -/

namespace Sys2Proof.Machine

def exec (i : Instr) (s : State) : Host.Outcome State Fault Refusal :=
  match i with
  | .nop => Sys2Proof.Machine.execNop s
  | .clr => Sys2Proof.Machine.execClr s
  | .b32e => Sys2Proof.Machine.execB32e s
  | .b32d => Sys2Proof.Machine.execB32d s
  | .b32es => Sys2Proof.Machine.execB32es s
  | .b32ds => Sys2Proof.Machine.execB32ds s
  | .rg85 => Sys2Proof.Machine.execRg85 s
  | .rg58 => Sys2Proof.Machine.execRg58 s
  | .pminit => Sys2Proof.Machine.execPminit s
  | .pmpush => Sys2Proof.Machine.execPmpush s
  | .pmrun => Sys2Proof.Machine.execPmrun s
  | .pmembed => Sys2Proof.Machine.execPmembed s
  | .pmcheck => Sys2Proof.Machine.execPmcheck s
  | .venc => Sys2Proof.Machine.execVenc s
  | .vdec => Sys2Proof.Machine.execVdec s

end Sys2Proof.Machine
end

