-- ==== Sys2Proof/Machine/Flags.lean ====
section
/-! DEFINITION. The status of the block: the code of an error kind (R91) and the byte the host reads as `STATUS`
(R9). -/

namespace Sys2Proof.Machine

/-- The code of an error kind (R91). -/
def ErrorKind.code : ErrorKind → BitVec 4
  | .invalidCharacter => 1
  | .mixedCaseError => 2
  | .invalidPadding => 3
  | .checksumMismatch => 4
  | .unsupportedLength => 5
  | .unsupportedType => 6
  | .invalidValue => 7
  | .capacityExceeded => 8
  | .illegalCommand => 9

/-- `ECODE`, bits 3:0 of `STATUS`: 0 is OK (R9, R91). -/
def ecodeBits : Option ErrorKind → BitVec 4
  | none => 0
  | some k => k.code

/-- `STATUS.ERR`, the block's only flag: `ECODE != 0` (R9). -/
def errFlag (e : Option ErrorKind) : Bool := decide (ecodeBits e ≠ 0)

/-- `STATUS`: `ERR` in bit 7, bits 6:4 zero, `ECODE` in bits 3:0 (R9). -/
def statusByte (e : Option ErrorKind) : Byte := BitVec.ofBool (errFlag e) ++ (0#3 ++ ecodeBits e)

/-- The error kind a host reads out of a `STATUS` value (R91): none for 0x00 and for the values never produced. -/
def kindOfStatus (v : Byte) : Option ErrorKind :=
  [ErrorKind.invalidCharacter, .mixedCaseError, .invalidPadding, .checksumMismatch, .unsupportedLength,
    .unsupportedType, .invalidValue, .capacityExceeded, .illegalCommand].find? fun k => statusByte (some k) == v

end Sys2Proof.Machine
end

