-- ==== Sys2Proof/Machine/HostPort.lean ====
section
/-! DEFINITION. What a host transaction does to the block (R21, R22, R25) and what the reset event does (R102). -/

namespace Sys2Proof.Machine

/-- One of the bytes `C0` to `C4` of the accumulator, `C0` the least significant (R14). -/
def accByte (c : Acc) (k : Nat) : Byte := c.extractLsb' (8 * k) 8

/-- `HostRead` (R21): the content of a register or cell, 0x00 for a reserved offset (R22) and so for
an index that names no cell (R30). It changes nothing (R25). -/
def hostRead (s : State) : HostReg → Byte
  | .cmd => s.cmd
  | .status => statusByte s.ecode
  | .einfo => s.einfo
  | .slen => s.slen
  | .arg0 => s.arg0
  | .arg1 => s.arg1
  | .res0 => s.res0
  | .res1 => s.res1
  | .c0 => accByte s.c 0
  | .c1 => accByte s.c 1
  | .c2 => accByte s.c 2
  | .c3 => accByte s.c 3
  | .c4 => accByte s.c 4
  | .sb i => (s.sb.read i).getD 0
  | .reserved => 0

/-- A write to `CMD` (R8): the word is stored, then the command it encodes runs, or `IllegalCommand` is raised. -/
def runWord (w : Byte) (s : State) : Outcome :=
  match decode w with
  | .ok i => exec i (s.withCmd w)
  | .error _ => illegalCommand (s.withCmd w)

/-- `HostWrite` (R21): to a read-only register or a reserved offset it is ignored (R22). -/
def hostWrite (v : Byte) (s : State) : HostReg → Outcome
  | .cmd => runWord v s
  | .slen => .next { s with slen := v }
  | .arg0 => .next { s with arg0 := v }
  | .arg1 => .next { s with arg1 := v }
  | .sb i => .next { s with sb := s.sb.write i v }
  | .status => .next s
  | .einfo => .next s
  | .res0 => .next s
  | .res1 => .next s
  | .c0 => .next s
  | .c1 => .next s
  | .c2 => .next s
  | .c3 => .next s
  | .c4 => .next s
  | .reserved => .next s

/-- The reset event (R102): the block as after its next reset; the constant tables are the same. What the host still has to do and has read is kept:
DESIGN CHOICE, unsafe: log entry 8. -/
def resetBlock (s : State) : State :=
  { s with toBlock := Block.afterReset (s.resets + 1), resets := s.resets + 1 }

/-- One event of the host, as one atomic step (R25). A read's value is delivered to the host. -/
def transact (s : State) : HostEvent → Outcome
  | .write off v => hostWrite v s (HostReg.ofOffset off)
  | .read off => .next { s with replies := s.replies ++ [hostRead s (HostReg.ofOffset off)] }
  | .reset => .next (resetBlock s)

end Sys2Proof.Machine
end

