-- ==== Sys2Proof/Machine/Step.lean ====
section
/-! DEFINITION. One step of the machine: the oldest transaction the host has issued takes effect (R27). -/

namespace Sys2Proof.Machine

/-- One step. The host's transactions take effect one at a time in program order (R27); while the host issues none,
the block does nothing (R3). DEDUCED, safe: log entry 2. -/
def step (s : State) : Host.Outcome State Fault Refusal :=
  match s.pending with
  | [] => .next s
  | e :: rest => transact { s with pending := rest } e

/-- `s` with a write of the command word to `CMD` as the host's next transaction, so that the next step runs it. The
block fetches nothing (R2): a command word takes effect at the write to `CMD` (R29). DESIGN CHOICE,
safe: log entries 5 and 18. -/
def State.withFetchWord (s : State) (nbits w : Nat) : State :=
  { s with pending := .write 0x000 (BitVec.ofNat 8 (w % 2 ^ nbits)) :: s.pending }

end Sys2Proof.Machine
end

