-- ==== Sys2Proof/Machine/HostScript.lean ====
section
/-! DEFINITION. The host script notation (R45, R46): each line is a host transaction, each pseudo-operation its
expansion. -/

namespace Sys2Proof.Machine

/-- `wr SLEN, v` (R45). -/
def wrSlen (v : Byte) : HostEvent := .write 0x003 v

/-- `wr ARG0, v` (R45). -/
def wrArg0 (v : Byte) : HostEvent := .write 0x004 v

/-- `wr ARG1, v` (R45). -/
def wrArg1 (v : Byte) : HostEvent := .write 0x005 v

/-- `wrsb i, v` (R45): offset 0x100 + i. At an index that names no cell the host has no transaction (R30), so there is
no such line. -/
def wrsb (i : Nat) (v : Byte) : Option HostEvent := (HostReg.sb i).offset?.map fun off => .write off v

/-- `cmd MNEMONIC` (R45). -/
def cmd (i : Instr) : HostEvent := .write 0x000 (encode i)

/-- `rd REG` and `rdsb i` (R45); a register that has no offset has no such line. -/
def rd (r : HostReg) : Option HostEvent := r.offset?.map .read

/-- The cell writes of `load`, from index `i` on. A value beyond the last cell is written nowhere.
DESIGN CHOICE, unsafe: log entry 20. -/
def loadCells (i : Nat) : List Byte → List HostEvent
  | [] => []
  | v :: vs => (wrsb i v).toList ++ loadCells (i + 1) vs

/-- `load [v0, ..., vk]`, and `loads` with character codes (R46): the cells, then `SLEN`. Of a length above 255 `SLEN`
gets the low eight bits. DESIGN CHOICE, unsafe: log entry 20. -/
def load (vs : List Byte) : List HostEvent := loadCells 0 vs ++ [wrSlen (BitVec.ofNat 8 vs.length)]

/-- `push v` (R46). -/
def push (v : Byte) : List HostEvent := [wrArg0 v, cmd .pmpush]

/-- `expand_prefix(p)` (R42): the low five bits of each character code, then a zero separator. -/
def expandPrefix (p : List Byte) : List Group := p.map (fun ch => ch.setWidth 5) ++ [0]

/-- `pushprefix "p"` (R46): `push (code & 0x1F)` for each character, then `push 0`. -/
def pushPrefix (p : List Byte) : List HostEvent := p.flatMap (fun ch => push (ch &&& 0x1F)) ++ push 0

/-- `dump` (R46): the `SLEN` register and the cells below it, as the host reads them. -/
def dump (s : State) : List Byte := (List.range (hostRead s .slen).toNat).map fun i => hostRead s (.sb i)

/-- `expect KIND` (R46): the host reads `STATUS` and compares it with the value of the kind, `none` for `OK`. -/
def expect (s : State) (kind : Option ErrorKind) : Bool := hostRead s .status == statusByte kind

/-- Several transactions in program order (R27). -/
def transactAll (s : State) : List HostEvent → Outcome
  | [] => .next s
  | e :: es =>
    match transact s e with
    | .next t => transactAll t es
    | .fault f => .fault f
    | .refused r => .refused r

end Sys2Proof.Machine
end

