-- ==== Sys2Proof/Machine/HostSequence.lean ====
section
/-! DEFINITION. The Encoder and Decoder host sequences (R84, R85): surrounding software over the commands of the
block, with the string handling done by the host (R90). -/

namespace Sys2Proof.Machine

/-- What a sequence reports when it fails (R88, R91): a coded kind, or one of the kinds no command raises. -/
inductive SeqError where
  | kind (k : ErrorKind)
  | invalidHashLength
  | versionByteMismatch
  | truncatedPayload
  | missingPrefix
  deriving DecidableEq, Repr

/-- The triple an address stands for (glossary of `00_scope.md`): the prefix, the type code (R39), the hash. -/
structure Address where
  pfx : List Byte
  type : Byte
  hash : List Byte
  deriving DecidableEq, Repr

/-- How one run of a sequence ends (R83): the state the block is left in, and the result or the error kind. -/
structure RunEnd (α : Type) where
  state : State
  result : Except SeqError α

/-- What a run answers; the machine's own stops are passed on. -/
abbrev Run (α : Type) := Host.Outcome (RunEnd α) Fault Refusal

/-- The run ends with a result. -/
def finish {α : Type} (s : State) (a : α) : Run α := .next ⟨s, .ok a⟩

/-- The run stops and reports an error kind; there is no partial result (R83). -/
def failWith {α : Type} (s : State) (e : SeqError) : Run α := .next ⟨s, .error e⟩

/-- The host issues the transactions, then goes on in the state they leave. -/
def issue {α : Type} (s : State) (es : List HostEvent) (k : State → Run α) : Run α :=
  match transactAll s es with
  | .next t => k t
  | .fault f => .fault f
  | .refused r => .refused r

/-- The host reads `STATUS` and goes on only if it is OK; otherwise it reports what `report` makes of the kind.
The host reads registers with `hostRead`: DESIGN CHOICE, safe: log entry 13. -/
def requireOk {α : Type} (s : State) (report : ErrorKind → SeqError) (k : Unit → Run α) : Run α :=
  match kindOfStatus (hostRead s .status) with
  | none => k ()
  | some e => failWith s (report e)

/-- The Encoder (R84), steps 1 to 9: the address string, or an error kind. The status is read after every step (R83).
DEDUCED, safe: log entry 17. -/
def encodeAddress (s : State) (pfx : List Byte) (t : Byte) (hash : List Byte) : Run (List Byte) :=
  if hash.length ∉ sizeTable.map BitVec.toNat then failWith s .invalidHashLength
  else issue s [wrArg0 t, wrArg1 (BitVec.ofNat 8 hash.length), cmd .venc] fun s =>
    requireOk s .kind fun _ =>
    issue s (load (hostRead s .res0 :: hash) ++ [cmd .rg85]) fun s =>
    requireOk s .kind fun _ =>
    issue s (cmd .pminit :: pushPrefix pfx ++ [cmd .pmrun]) fun s =>
    requireOk s .kind fun _ =>
    issue s [cmd .pmembed] fun s =>
    requireOk s .kind fun _ =>
    issue s [cmd .b32es] fun s =>
    requireOk s .kind fun _ =>
    finish s (pfx ++ [0x3A] ++ dump s)

/-- The split at the last colon (R85 step 1): what is before it and what is after it. -/
def splitAtLastColon : List Byte → Option (List Byte × List Byte)
  | [] => none
  | ch :: rest =>
    match splitAtLastColon rest with
    | some (left, right) => some (ch :: left, right)
    | none => if ch = 0x3A then some ([], rest) else none

/-- The prefix and the body of a string (R85 steps 1 and 2, R86, R87): the prefix is lowered, not checked; without a
colon it is the default prefix, which may be absent. -/
def prefixAndBody (defaultPrefix : Option (List Byte)) (str : List Byte) : Option (List Byte) × List Byte :=
  match splitAtLastColon str with
  | some (left, right) => (some (left.map toLower), right)
  | none => (defaultPrefix.map fun p => p.map toLower, str)

/-- R85 steps 8 to 11: the version byte, the two checks of the host, the result. -/
def decodePayload (s : State) (pfx : List Byte) : Run Address :=
  let len := (hostRead s .slen).toNat
  if len = 0 then failWith s .truncatedPayload
  else issue s [wrArg0 (hostRead s (.sb 0)), cmd .vdec] fun s =>
    if (hostRead s .res1).toNat ≠ len - 1 then failWith s .versionByteMismatch
    else if 1 < (hostRead s .res0).toNat then failWith s (.kind .unsupportedType)
    else finish s ⟨pfx, hostRead s .res0, (List.range (len - 1)).map fun i => hostRead s (.sb (i + 1))⟩

/-- R85 steps 6 and 7: the eight checksum groups are dropped, the rest is regrouped. -/
def decodeGroups (s : State) (pfx : List Byte) : Run Address :=
  let m := hostRead s .slen
  if m.toNat < 8 then failWith s .truncatedPayload
  else issue s [wrSlen (m - 8), cmd .rg58] fun s =>
    requireOk s (fun _ => .kind .invalidPadding) fun _ =>
    decodePayload s pfx

/-- The Decoder (R85), steps 1 to 11: the address, or an error kind. -/
def decodeAddress (s : State) (defaultPrefix : Option (List Byte)) (str : List Byte) : Run Address :=
  let (pfx, body) := prefixAndBody defaultPrefix str
  if Config.sbDepth < body.length then failWith s (.kind .capacityExceeded)
  else issue s (load body ++ [cmd .b32ds]) fun s =>
    requireOk s .kind fun _ =>
    match pfx with
    | none => failWith s .missingPrefix
    | some p =>
      issue s (cmd .pminit :: pushPrefix p ++ [cmd .pmrun, cmd .pmcheck]) fun s =>
      requireOk s (fun _ => .kind .checksumMismatch) fun _ =>
      decodeGroups s p

/-- The Decoder with the `DEFAULT_PREFIX` this implementation fixes (R6, R87): none. -/
def decodeAddressDefault (s : State) (str : List Byte) : Run Address := decodeAddress s Config.defaultPrefix str

end Sys2Proof.Machine
end

