-- ==== Sys2Proof/Safety.lean ====
section
/-! DEFINITION. What a safe state of the machine is: the invariant its steps keep, and the terms claims use. -/

namespace Sys2Proof.Machine

/-- R92, its middle column: the error kinds a command can raise. -/
def kindsOf : Instr → List ErrorKind
  | .nop => []
  | .clr => []
  | .pminit => []
  | .vdec => []
  | .b32e => [.invalidValue]
  | .b32d => [.invalidCharacter]
  | .b32es => [.capacityExceeded, .invalidValue]
  | .b32ds => [.capacityExceeded, .mixedCaseError, .invalidCharacter]
  | .rg85 => [.capacityExceeded]
  | .rg58 => [.capacityExceeded, .invalidValue, .invalidPadding]
  | .pmpush => [.invalidValue]
  | .pmrun => [.capacityExceeded, .invalidValue]
  | .pmembed => [.capacityExceeded]
  | .pmcheck => [.checksumMismatch]
  | .venc => [.unsupportedLength, .unsupportedType]

/-- The kinds whose `EINFO` can be an index (R93). -/
def indexedKinds : List ErrorKind := [.invalidCharacter, .mixedCaseError, .invalidValue]

/-- The error kinds the word in `CMD` can leave in `ECODE`, and whether it can leave OK (R92, R95). -/
def statusFitsWord (w : Byte) (e : Option ErrorKind) : Bool :=
  match decode w with
  | .ok i => e.all fun k => (kindsOf i).contains k
  | .error _ => e == some .illegalCommand

/-- The invariant of the block. -/
structure Block.Inv (b : Block) : Prop where
  /-- `SB` has exactly its `SB_DEPTH` cells (R15, R30). -/
  cells : b.sb.wf = true
  /-- The status describes the word in `CMD` and no other (R95, R92). -/
  status : statusFitsWord b.cmd b.ecode = true
  /-- `EINFO` is 0 on success and for every kind that has no index (R10, R93). -/
  info : b.einfo ≠ 0 → ∃ k ∈ indexedKinds, b.ecode = some k
  /-- `EINFO` names a cell that exists (R93). -/
  infoBound : b.einfo.toNat < Config.sbDepth
  /-- `RES1` is 0 or a declared length, one of the eight legal ones (R13, R75). -/
  length : b.res1 = 0 ∨ b.res1 ∈ sizeTable

/-- `SBV = xs` (section 5 of `00_scope.md`): `SLEN` is the length of `xs` and cell `j` holds `xs[j]`. -/
def State.sbvIs (s : State) (xs : List Byte) : Prop :=
  xs.length = s.slen.toNat ∧ ∀ j < xs.length, s.sb.read j = xs[j]?

/-- The buffer `m'` holds `ys` in the cells from `base` on and what `m` holds in every other cell. -/
def Memory.Overwritten (m m' : Memory) (base : Nat) (ys : List Byte) : Prop :=
  m'.wf = true ∧
    ∀ j, m'.read j = if base ≤ j ∧ j < base + ys.length then ys[j - base]? else m.read j

/-- 5-bit groups as cells hold them, zero-extended (R20, R44). -/
def groupCells (gs : List Group) : List Byte := gs.map fun g => g.setWidth 8

/-- A string as the list of the codes of its characters (section 5 of `00_scope.md`). -/
def asciiCodes (str : String) : List Byte := str.toList.map fun ch => BitVec.ofNat 8 ch.toNat

/-- R89 item 1's valid prefix: lower case, and no colon in it. -/
def ValidPrefix (pfx : List Byte) : Prop := pfx.map toLower = pfx ∧ 0x3A ∉ pfx

/-- R89 item 2's `s.toUpperCase()`: every lower-case ASCII letter in upper case. -/
def upperCased (str : List Byte) : List Byte := str.map fun ch => if 0x61 ≤ ch ∧ ch ≤ 0x7A then ch - 0x20 else ch

/-- R89 item 2's mixing of cases: an upper-case and a lower-case ASCII letter (R49). -/
def MixesCases (str : List Byte) : Prop := (∃ u ∈ str, caseOf u = some .upper) ∧ ∃ l ∈ str, caseOf l = some .lower

/-- R89 item 3's substitution: one character of the body is replaced by an alphabet character of another value, and the
body still does not mix cases. -/
def OneSubstituted (body body' : List Byte) : Prop :=
  ∃ l r x y v, body = l ++ x :: r ∧ body' = l ++ y :: r ∧ charToValue y = some v ∧ charToValue x ≠ some v ∧
    ¬ MixesCases body'

/-- The prefix of the literal vectors (R89 item 5, section 1.1 of `95_test_vectors.md`). -/
def literalPrefix : List Byte := asciiCodes "bitcoincash"

/-- The hash of the literal vectors (R89 item 5). -/
def literalHash : List Byte :=
  [118, 160, 64, 83, 189, 160, 168, 139, 218, 81, 119, 184, 106, 21, 195, 178, 159, 85, 152, 115]

/-- The literal vectors (R89 item 5): for each type code the address of `literalHash` under `literalPrefix`. -/
def literalAddresses : List (Byte × List Byte) :=
  [(0, asciiCodes "bitcoincash:qpm2qsznhks23z7629mms6s4cwef74vcwvy22gdx6a"),
    (1, asciiCodes "bitcoincash:ppm2qsznhks23z7629mms6s4cwef74vcwvn0h829pq")]

/-- The result or the error kind a run of a sequence reports (R83); `none` if the machine stopped. -/
def runResult {α : Type} : Run α → Option (Except SeqError α)
  | .next r => some r.result
  | .fault _ => none
  | .refused _ => none

end Sys2Proof.Machine
end

