-- ==== Sys2Proof/Certificates/Slice0/Obligations.lean ====
section
/-! DEFINITION. The statements about the model, for the provers. -/

open Sys2Proof Sys2Proof.Machine

/-- R32, R33: every command's word decodes to that command, and a word that decodes to a command is its word. -/
def Obligations.CommandWordsDecodeAndEncode : Prop :=
  (∀ i : Instr, i.wellFormed = true → decode (encode i) = .ok i) ∧
    ∀ (w : Byte) (i : Instr), decode w = .ok i → encode i = w

/-- R33: a word is illegal exactly when a reserved bit is set or the opcode is 0xF; otherwise it is the command whose
number is the opcode. -/
def Obligations.DecoderRejectsExactlyIllegalWords : Prop :=
  ∀ w : Byte,
    ((w.extractLsb' 4 4 ≠ 0 ∨ w.extractLsb' 0 4 = 0xF) → ∃ r, decode w = .error r) ∧
    ((w.extractLsb' 4 4 = 0 ∧ w.extractLsb' 0 4 ≠ 0xF) →
      ∃ i, [Instr.nop, .clr, .b32e, .b32d, .b32es, .b32ds, .rg85, .rg58, .pminit, .pmpush, .pmrun, .pmembed,
        .pmcheck, .venc, .vdec][(w.extractLsb' 0 4).toNat]? = some i ∧ decode w = .ok i)

/-- R32's rows, one word of each unit written out bit by bit. -/
def Obligations.WrittenOutWordsDecode : Prop :=
  decode 0b00000001 = .ok .clr ∧ decode 0b00000010 = .ok .b32e ∧ decode 0b00000101 = .ok .b32ds ∧
    decode 0b00000110 = .ok .rg85 ∧ decode 0b00000111 = .ok .rg58 ∧ decode 0b00001011 = .ok .pmembed ∧
    decode 0b00001101 = .ok .venc ∧ decode 0b00001110 = .ok .vdec ∧
    decode 0b00001111 = .error .reservedOpcode ∧ decode 0b10000110 = .error .reservedBitSet

/-- R8, the step: a write of `w` to `CMD` stores `w` and then executes the command `w` encodes. The step adds to
`exec` only that the host's transaction is consumed and that `CMD` holds `w`. -/
def Obligations.CmdWriteRunsTheDecodedCommand : Prop :=
  ∀ (s : State) (rest : List HostEvent) (w : Byte) (i : Instr),
    s.pending = .write 0x000 w :: rest → decode w = .ok i →
      step s = exec i { s with pending := rest, cmd := w }

/-- R82: an illegal word is stored in `CMD` and raises `IllegalCommand(0)`; nothing else changes. -/
def Obligations.IllegalWordRaisesIllegalCommand : Prop :=
  ∀ (s : State) (rest : List HostEvent) (w : Byte),
    s.pending = .write 0x000 w :: rest → (w.extractLsb' 4 4 ≠ 0 ∨ w.extractLsb' 0 4 = 0xF) →
      step s = .next { s with pending := rest, cmd := w, ecode := some .illegalCommand, einfo := 0 } ∧
        statusByte (some .illegalCommand) = 0x89

/-- R21, R22, R26, the write column of the register map, `CMD` apart: a writable register or cell takes the value, a
write to a read-only register or a reserved offset changes nothing. -/
def Obligations.HostWriteSetsTheRegisterAtTheOffset : Prop :=
  ∀ (s : State) (rest : List HostEvent) (off : Offset) (v : Byte), s.pending = .write off v :: rest →
    (off = 0x003 → step s = .next { s with pending := rest, slen := v }) ∧
    (off = 0x004 → step s = .next { s with pending := rest, arg0 := v }) ∧
    (off = 0x005 → step s = .next { s with pending := rest, arg1 := v }) ∧
    (∀ i < Config.sbDepth, s.sb.wf = true → off.toNat = 0x100 + i →
      ∃ m, s.sb.Overwritten m i [v] ∧ step s = .next { s with pending := rest, sb := m }) ∧
    ((off = 0x001 ∨ off = 0x002 ∨ (0x006 ≤ off.toNat ∧ off.toNat < 0x100) ∨ 0x100 + Config.sbDepth ≤ off.toNat) →
      step s = .next { s with pending := rest })

/-- R21, R22, R25, R26, R14, the read column of the register map: the host gets the content of the register or cell,
0x00 for a reserved offset, and nothing of the block changes. -/
def Obligations.HostReadReturnsTheRegisterAtTheOffset : Prop :=
  ∀ (s : State) (rest : List HostEvent) (off : Offset), s.pending = .read off :: rest →
    ∃ v, step s = .next { s with pending := rest, replies := s.replies ++ [v] } ∧
      (off = 0x000 → v = s.cmd) ∧ (off = 0x001 → v = statusByte s.ecode) ∧ (off = 0x002 → v = s.einfo) ∧
      (off = 0x003 → v = s.slen) ∧ (off = 0x004 → v = s.arg0) ∧ (off = 0x005 → v = s.arg1) ∧
      (off = 0x006 → v = s.res0) ∧ (off = 0x007 → v = s.res1) ∧
      (∀ k < 5, off.toNat = 0x008 + k → v = (s.c >>> (8 * k)).setWidth 8) ∧
      (∀ i < Config.sbDepth, ∀ u, off.toNat = 0x100 + i → s.sb.read i = some u → v = u) ∧
      (((0x00D ≤ off.toNat ∧ off.toNat < 0x100) ∨ 0x100 + Config.sbDepth ≤ off.toNat) → v = 0x00)

/-- R9, R91: `STATUS` is `ERR` in bit 7, zeros in bits 6:4, `ECODE` in bits 3:0; `ERR` is 1 exactly when `ECODE` is
not 0; and R91's table of the values `STATUS` has, from which the host reads the kind back. -/
def Obligations.StatusIsErrZerosAndEcode : Prop :=
  (∀ e : Option ErrorKind,
    (statusByte e).getLsbD 7 = decide (ecodeBits e ≠ 0) ∧ (statusByte e).extractLsb' 4 3 = 0 ∧
    (statusByte e).extractLsb' 0 4 = ecodeBits e ∧ (ecodeBits e).toNat ≤ 9 ∧ (ecodeBits e = 0 ↔ e = none)) ∧
  statusByte none = 0x00 ∧ statusByte (some .invalidCharacter) = 0x81 ∧ statusByte (some .mixedCaseError) = 0x82 ∧
    statusByte (some .invalidPadding) = 0x83 ∧ statusByte (some .checksumMismatch) = 0x84 ∧
    statusByte (some .unsupportedLength) = 0x85 ∧ statusByte (some .unsupportedType) = 0x86 ∧
    statusByte (some .invalidValue) = 0x87 ∧ statusByte (some .capacityExceeded) = 0x88 ∧
    statusByte (some .illegalCommand) = 0x89 ∧ ∀ e, kindOfStatus (statusByte e) = e

/-- R27: the transactions take effect one at a time in the order issued: a step consumes the oldest and leaves the
later ones, and the earlier replies stay. That this holds of the reset event too, which keeps the queued transactions
and the earlier replies, is the model's choice and not the spec's: log entry 8. -/
def Obligations.TransactionsTakeEffectInProgramOrder : Prop :=
  ∀ (s t : State) (e : HostEvent) (rest : List HostEvent), s.pending = e :: rest → step s = .next t →
    t.pending = rest ∧ ∃ new, t.replies = s.replies ++ new ∧ new.length = match e with
      | .read _ => 1
      | .write _ _ => 0
      | .reset => 0

/-- R27 item 3, for the host's own writes: a read after a write to the same register or cell returns the value
written; for `CMD` that is the word, whether or not its command failed (R8). -/
def Obligations.HostReadReturnsTheLatestWrite : Prop :=
  ∀ (s : State) (off : Offset) (v : Byte) (rest : List HostEvent), s.sb.wf = true →
    (HostReg.ofOffset off).writable = true → s.pending = .write off v :: .read off :: rest →
      ∃ t u, step s = .next t ∧ step t = .next u ∧ u.replies = s.replies ++ [v]

/-- Not the spec's words but the model's reading of R3 (DEDUCED, log entry 2): while the host has issued nothing, the block does nothing. -/
def Obligations.BlockIdlesWithoutTransaction : Prop :=
  ∀ s : State, s.pending = [] → step s = .next s

/-- R102, R18: after the reset event every register has its reset value, and `SB` has its cells, with nothing said
about what they hold. -/
def Obligations.ResetEventGivesTheResetState : Prop :=
  ∀ (s : State) (rest : List HostEvent), s.pending = .reset :: rest →
    ∃ t m, step s = .next t ∧ m.wf = true ∧ t.toBlock =
      { cmd := 0x00, ecode := none, einfo := 0x00, slen := 0x00, arg0 := 0x00, arg1 := 0x00, res0 := 0x00,
        res1 := 0x00, c := 1, sb := m }

/-- R18: the initial state, with nothing said about what the cells of `SB` hold. -/
def Obligations.InitialStateIsTheResetState : Prop :=
  State.reset.cmd = 0x00 ∧ State.reset.ecode = none ∧ statusByte State.reset.ecode = 0x00 ∧
    State.reset.einfo = 0x00 ∧ State.reset.slen = 0x00 ∧ State.reset.arg0 = 0x00 ∧ State.reset.arg1 = 0x00 ∧
    State.reset.res0 = 0x00 ∧ State.reset.res1 = 0x00 ∧ State.reset.c = 1 ∧
    ∀ i, (State.reset.sb.read i).isSome = decide (i < Config.sbDepth)

/-- R107, R98: every step and every command answers a next state: nothing hangs, nothing stops. -/
def Obligations.EveryStepAnswersANextState : Prop :=
  (∀ s : State, ∃ t, step s = .next t) ∧ ∀ (i : Instr) (s : State), ∃ t, exec i s = .next t

/-- R80: NOP clears the status and changes nothing else. -/
def Obligations.NopClearsTheStatusOnly : Prop :=
  decode 0x00 = .ok .nop ∧ ∀ s : State, exec .nop s = .next { s with ecode := none, einfo := 0 }

/-- R81: CLR sets the registers to their reset values and keeps `CMD` and every cell of `SB`. -/
def Obligations.ClrResetsTheRegistersAndKeepsTheBuffer : Prop :=
  decode 0x01 = .ok .clr ∧ ∀ s : State, exec .clr s = .next
    { s with slen := 0, arg0 := 0, arg1 := 0, res0 := 0, res1 := 0, c := 1, ecode := none, einfo := 0 }

/-- R36, R47: `value_to_char` is the alphabet string of D0, in ASCII, and is injective. -/
def Obligations.ValueToCharIsTheAlphabetString : Prop :=
  (∀ v : Group, (valueToChar v).toNat =
    (['q', 'p', 'z', 'r', 'y', '9', 'x', '8', 'g', 'f', '2', 't', 'v', 'd', 'w', '0', 's', '3', 'j', 'n', '5', '4',
      'k', 'h', 'c', 'e', '6', 'm', 'u', 'a', '7', 'l'].getD v.toNat ' ').toNat) ∧
    ∀ v v' : Group, valueToChar v = valueToChar v' → v = v'

/-- R48, R49: `char_to_value` folds an upper-case ASCII letter and looks the code up, and 201 codes are invalid; only
ASCII letters have a case, in the alphabet or not. -/
def Obligations.CharToValueFoldsAndCaseOfSeesLetters : Prop :=
  (∀ (ch : Byte) (v : Group), charToValue ch = some v ↔
    valueToChar v = if 0x41 ≤ ch.toNat ∧ ch.toNat ≤ 0x5A then ch + 0x20 else ch) ∧
    ((List.range 256).filter fun n => (charToValue (BitVec.ofNat 8 n)).isNone).length = 201 ∧
    ∀ ch : Byte,
      (caseOf ch = some .upper ↔ 0x41 ≤ ch.toNat ∧ ch.toNat ≤ 0x5A) ∧
      (caseOf ch = some .lower ↔ 0x61 ≤ ch.toNat ∧ ch.toNat ≤ 0x7A)

/-- R50: B32E. -/
def Obligations.B32eEncodesOneValue : Prop :=
  decode 0x02 = .ok .b32e ∧
    (∀ s : State, s.arg0.toNat ≤ 31 → exec .b32e s = .next
      { s with res0 := valueToChar (BitVec.ofNat 5 s.arg0.toNat), ecode := none, einfo := 0 }) ∧
    (∀ s : State, 31 < s.arg0.toNat → exec .b32e s = .next { s with ecode := some .invalidValue, einfo := 0 })

/-- R52: B32D. -/
def Obligations.B32dDecodesOneCharacter : Prop :=
  decode 0x03 = .ok .b32d ∧
    (∀ (s : State) (v : Group), charToValue s.arg0 = some v → exec .b32d s = .next
      { s with res0 := BitVec.ofNat 8 v.toNat, ecode := none, einfo := 0 }) ∧
    (∀ s : State, charToValue s.arg0 = none → exec .b32d s = .next
      { s with ecode := some .invalidCharacter, einfo := 0 })

/-- R51: B32ES. -/
def Obligations.B32esEncodesTheBuffer : Prop :=
  decode 0x04 = .ok .b32es ∧
    (∀ s : State, Config.sbDepth < s.slen.toNat → exec .b32es s = .next
      { s with ecode := some .capacityExceeded, einfo := 0 }) ∧
    (∀ (s : State) (xs : List Byte) (i : Nat) (v : Byte), s.sb.wf = true → s.sbvIs xs → xs[i]? = some v →
      31 < v.toNat → (∀ u ∈ xs.take i, u.toNat ≤ 31) → exec .b32es s = .next
        { s with ecode := some .invalidValue, einfo := BitVec.ofNat 8 i }) ∧
    (∀ (s : State) (gs : List Group), s.sb.wf = true → s.sbvIs (groupCells gs) →
      ∃ m, s.sb.Overwritten m 0 (gs.map valueToChar) ∧ exec .b32es s = .next
        { s with sb := m, ecode := none, einfo := 0 })

/-- R53: B32DS. Case: `first` is the case of the first letter, `i` the lowest index of a letter of the other case.
Membership: `i` is the lowest index of a code outside the alphabet. Otherwise every cell becomes its value. -/
def Obligations.B32dsDecodesTheBuffer : Prop :=
  decode 0x05 = .ok .b32ds ∧
    (∀ s : State, Config.sbDepth < s.slen.toNat → exec .b32ds s = .next
      { s with ecode := some .capacityExceeded, einfo := 0 }) ∧
    (∀ (s : State) (xs : List Byte) (i : Nat) (ch : Byte) (first other : LetterCase), s.sb.wf = true → s.sbvIs xs →
      xs[i]? = some ch → caseOf ch = some other → other ≠ first → (∃ u ∈ xs.take i, caseOf u = some first) →
      (∀ u ∈ xs.take i, caseOf u ≠ some other) → exec .b32ds s = .next
        { s with ecode := some .mixedCaseError, einfo := BitVec.ofNat 8 i }) ∧
    (∀ (s : State) (xs : List Byte) (i : Nat) (ch : Byte) (k : LetterCase), s.sb.wf = true → s.sbvIs xs →
      (∀ u ∈ xs, caseOf u = none ∨ caseOf u = some k) → xs[i]? = some ch → charToValue ch = none →
      (∀ u ∈ xs.take i, charToValue u ≠ none) → exec .b32ds s = .next
        { s with ecode := some .invalidCharacter, einfo := BitVec.ofNat 8 i }) ∧
    (∀ (s : State) (xs : List Byte) (gs : List Group) (k : LetterCase), s.sb.wf = true → s.sbvIs xs →
      (∀ u ∈ xs, caseOf u = none ∨ caseOf u = some k) → xs.map charToValue = gs.map some →
      ∃ m, s.sb.Overwritten m 0 (groupCells gs) ∧ exec .b32ds s = .next
        { s with sb := m, ecode := none, einfo := 0 })

/-- R54: B32ES then B32DS restores the groups; B32DS gives the same on a body and on its upper-case form. -/
def Obligations.Base32BufferRoundTrip : Prop :=
  (∀ (s : State) (gs : List Group), s.sb.wf = true → s.sbvIs (groupCells gs) →
    ∃ t u, exec .b32es s = .next t ∧ t.ecode = none ∧ exec .b32ds t = .next u ∧ u.ecode = none ∧
      u.sbvIs (groupCells gs)) ∧
  (∀ (s s' t : State) (xs : List Byte), s.sb.wf = true → s'.sb.wf = true → s.sbvIs xs →
    s'.sbvIs (xs.map fun ch => if 0x61 ≤ ch.toNat ∧ ch.toNat ≤ 0x7A then ch - 0x20 else ch) →
    exec .b32ds s = .next t → t.ecode = none →
    ∃ t' gs, exec .b32ds s' = .next t' ∧ t'.ecode = none ∧ t.sbvIs (groupCells gs) ∧ t'.sbvIs (groupCells gs))

/-- R55: the function stated on the bit stream and the algorithm are the same, for every pair of widths. -/
def Obligations.RegroupLoopComputesTheStream : Prop :=
  ∀ (xs : List Nat) (wi wo : Nat) (pad : Bool), 0 < wi → 0 < wo → (∀ x ∈ xs, x < 2 ^ wi) →
    regroupLoop xs wi wo pad = regroup xs wi wo pad

/-- R58: the lengths, and the number of zero pad bits in the last group. -/
def Obligations.RegroupLengths : Prop :=
  (∀ (bs : List Byte) (out : List Nat), regroup (bs.map BitVec.toNat) 8 5 true = some out →
    out.length = (8 * bs.length + 4) / 5 ∧
    5 * out.length - 8 * bs.length = [0, 2, 4, 1, 3].getD (bs.length % 5) 0 ∧
    ∀ g, out.getLast? = some g → g % 2 ^ (5 * out.length - 8 * bs.length) = 0) ∧
  (∀ (gs : List Group) (out : List Nat), regroup (gs.map BitVec.toNat) 5 8 false = some out →
    out.length = 5 * gs.length / 8)

/-- R60: five or more leftover bits are refused whatever the groups hold, and one more zero group is never accepted
beside the list without it. -/
def Obligations.LongLeftoverIsInvalidPadding : Prop :=
  (∀ gs : List Group, 5 ≤ 5 * gs.length % 8 → regroup (gs.map BitVec.toNat) 5 8 false = none) ∧
  (∀ (gs hs : List Group) (out : List Nat), regroup (gs.map BitVec.toNat) 5 8 false = some out →
    regroup (hs.map BitVec.toNat) 5 8 false = some out → gs = hs)

/-- R56: RG85. -/
def Obligations.Rg85RegroupsBytes : Prop :=
  decode 0x06 = .ok .rg85 ∧
    (∀ s : State, Config.sbDepth < (8 * s.slen.toNat + 4) / 5 → exec .rg85 s = .next
      { s with ecode := some .capacityExceeded, einfo := 0 }) ∧
    (∀ (s : State) (bs : List Byte), s.sb.wf = true → s.sbvIs bs → (8 * bs.length + 4) / 5 ≤ Config.sbDepth →
      ∃ m out, regroup (bs.map BitVec.toNat) 8 5 true = some out ∧
        s.sb.Overwritten m 0 (out.map (BitVec.ofNat 8)) ∧ exec .rg85 s = .next
          { s with sb := m, slen := BitVec.ofNat 8 out.length, ecode := none, einfo := 0 })

/-- R57: RG58. -/
def Obligations.Rg58RegroupsGroups : Prop :=
  decode 0x07 = .ok .rg58 ∧
    (∀ s : State, Config.sbDepth < s.slen.toNat → exec .rg58 s = .next
      { s with ecode := some .capacityExceeded, einfo := 0 }) ∧
    (∀ (s : State) (xs : List Byte) (i : Nat) (v : Byte), s.sb.wf = true → s.sbvIs xs → xs[i]? = some v →
      31 < v.toNat → (∀ u ∈ xs.take i, u.toNat ≤ 31) → exec .rg58 s = .next
        { s with ecode := some .invalidValue, einfo := BitVec.ofNat 8 i }) ∧
    (∀ (s : State) (gs : List Group), s.sb.wf = true → s.sbvIs (groupCells gs) →
      regroup (gs.map BitVec.toNat) 5 8 false = none → exec .rg58 s = .next
        { s with ecode := some .invalidPadding, einfo := 0 }) ∧
    (∀ (s : State) (gs : List Group) (out : List Nat), s.sb.wf = true → s.sbvIs (groupCells gs) →
      regroup (gs.map BitVec.toNat) 5 8 false = some out →
      ∃ m, s.sb.Overwritten m 0 (out.map (BitVec.ofNat 8)) ∧ exec .rg58 s = .next
        { s with sb := m, slen := BitVec.ofNat 8 out.length, ecode := none, einfo := 0 })

/-- R59: RG85 then RG58 restores the bytes; RG58, where it succeeds, then RG85 restores the groups. -/
def Obligations.RegroupBufferRoundTrip : Prop :=
  (∀ (s : State) (bs : List Byte), s.sb.wf = true → s.sbvIs bs → (8 * bs.length + 4) / 5 ≤ Config.sbDepth →
    ∃ t u, exec .rg85 s = .next t ∧ t.ecode = none ∧ exec .rg58 t = .next u ∧ u.ecode = none ∧ u.sbvIs bs) ∧
  (∀ (s t : State) (gs : List Group), s.sb.wf = true → s.sbvIs (groupCells gs) → exec .rg58 s = .next t →
    t.ecode = none → ∃ u, exec .rg85 t = .next u ∧ u.ecode = none ∧ u.sbvIs (groupCells gs))

/-- R65, R14: D0's step on a 64-bit accumulator, written with its own masks and shifts, keeps bits 63 to 40 zero and
computes what the 40-bit register computes, for every table of terms and every input. -/
def Obligations.FortyBitsComputeTheSixtyFourBitEngine : Prop :=
  ∀ (g : GenTable) (c : Acc) (vs : List Group),
    vs.foldl (fun (a : BitVec 64) (v : Group) =>
      let c0 := (a >>> 35) &&& 0xff
      let a := ((a &&& 0x07ffffffff) <<< 5) ||| v.setWidth 64
      let a := if c0.getLsbD 0 then a ^^^ g.g0.setWidth 64 else a
      let a := if c0.getLsbD 1 then a ^^^ g.g1.setWidth 64 else a
      let a := if c0.getLsbD 2 then a ^^^ g.g2.setWidth 64 else a
      let a := if c0.getLsbD 3 then a ^^^ g.g3.setWidth 64 else a
      if c0.getLsbD 4 then a ^^^ g.g4.setWidth 64 else a) (c.setWidth 64) = (polymod g c vs).setWidth 64

/-- R64, R66, R67, D13: the default generator terms, which are those of the initial state; and for every table the fold
law, and linearity over XOR in the accumulator and the symbols together. -/
def Obligations.PolymodFoldsOverPieces : Prop :=
  pmGen = ⟨0x98F2BC8E61, 0x79B76D99E2, 0xF33E5FB3C4, 0xAE2EABE2A8, 0x1E4F43E470⟩ ∧ State.reset.gen = pmGen ∧
    ∀ (g : GenTable) (c c' : Acc) (xs ys : List Group), polymod g c [] = c ∧
      polymod g c (xs ++ ys) = polymod g (polymod g c xs) ys ∧
      (xs.length = ys.length →
        polymod g (c ^^^ c') (List.zipWith (· ^^^ ·) xs ys) = polymod g c xs ^^^ polymod g c' ys)

/-- R41: the eight groups of a 40-bit value, most significant first, and they give the value back. -/
def Obligations.Split40ListsTheGroupsMostSignificantFirst : Prop :=
  ∀ x : Acc, (split40 x).length = 8 ∧
    (∀ i < 8, (split40 x)[i]? = some (BitVec.ofNat 5 (x.toNat >>> (5 * (7 - i)) &&& 0x1F))) ∧
    (split40 x).foldl (fun (a : Nat) (g : Group) => 32 * a + g.toNat) 0 = x.toNat

/-- R68: PMINIT. -/
def Obligations.PminitSetsTheAccumulatorToOne : Prop :=
  decode 0x08 = .ok .pminit ∧ ∀ s : State, exec .pminit s = .next { s with c := 1, ecode := none, einfo := 0 }

/-- R69: PMPUSH, for every table of terms the instance may have. -/
def Obligations.PmpushAbsorbsOneSymbol : Prop :=
  decode 0x09 = .ok .pmpush ∧
    (∀ s : State, s.arg0.toNat ≤ 31 → exec .pmpush s = .next
      { s with c := pmStep s.gen s.c (BitVec.ofNat 5 s.arg0.toNat), ecode := none, einfo := 0 }) ∧
    (∀ s : State, 31 < s.arg0.toNat → exec .pmpush s = .next { s with ecode := some .invalidValue, einfo := 0 })

/-- R70: PMRUN, for every table of terms the instance may have. -/
def Obligations.PmrunAbsorbsTheBuffer : Prop :=
  decode 0x0A = .ok .pmrun ∧
    (∀ s : State, Config.sbDepth < s.slen.toNat → exec .pmrun s = .next
      { s with ecode := some .capacityExceeded, einfo := 0 }) ∧
    (∀ (s : State) (xs : List Byte) (i : Nat) (v : Byte), s.sb.wf = true → s.sbvIs xs → xs[i]? = some v →
      31 < v.toNat → (∀ u ∈ xs.take i, u.toNat ≤ 31) → exec .pmrun s = .next
        { s with ecode := some .invalidValue, einfo := BitVec.ofNat 8 i }) ∧
    (∀ (s : State) (gs : List Group), s.sb.wf = true → s.sbvIs (groupCells gs) → exec .pmrun s = .next
      { s with c := polymod s.gen s.c gs, ecode := none, einfo := 0 })

/-- R71: PMEMBED, for every table of terms the instance may have. The cells written are computed from `SLEN`: the eight after `SB[SLEN-1]`. -/
def Obligations.PmembedAppendsTheChecksum : Prop :=
  decode 0x0B = .ok .pmembed ∧
    (∀ s : State, Config.sbDepth < s.slen.toNat + 8 → exec .pmembed s = .next
      { s with ecode := some .capacityExceeded, einfo := 0 }) ∧
    (∀ s : State, s.sb.wf = true → s.slen.toNat + 8 ≤ Config.sbDepth →
      ∃ m, s.sb.Overwritten m s.slen.toNat
          (groupCells (split40 (polymod s.gen s.c [0, 0, 0, 0, 0, 0, 0, 0] ^^^ 1))) ∧
        exec .pmembed s = .next
          { s with sb := m, slen := BitVec.ofNat 8 (s.slen.toNat + 8),
                   c := polymod s.gen s.c [0, 0, 0, 0, 0, 0, 0, 0], ecode := none, einfo := 0 })

/-- R72: PMCHECK. -/
def Obligations.PmcheckTestsTheResidue : Prop :=
  decode 0x0C = .ok .pmcheck ∧
    (∀ s : State, s.c = 1 → exec .pmcheck s = .next { s with ecode := none, einfo := 0 }) ∧
    (∀ s : State, s.c ≠ 1 → exec .pmcheck s = .next { s with ecode := some .checksumMismatch, einfo := 0 })

/-- R67: embedding the residue makes the message valid, for every table of terms, every start and every message. -/
def Obligations.EmbeddedResidueMakesTheMessageValid : Prop :=
  ∀ (g : GenTable) (c : Acc) (xs : List Group),
    polymod g c (xs ++ split40 (residue (polymod g c (xs ++ List.replicate 8 0)))) = 1

/-- R67, R71, hazard H9: a buffer that PMRUN and PMEMBED have closed verifies when it is absorbed whole from the
accumulator that the payload was absorbed from, for every table of terms the instance may have. -/
def Obligations.EmbeddedBufferPassesTheCheck : Prop :=
  ∀ (s : State) (gs : List Group), s.sb.wf = true → s.sbvIs (groupCells gs) → gs.length + 8 ≤ Config.sbDepth →
    ∃ a b d, exec .pmrun s = .next a ∧ exec .pmembed a = .next b ∧ b.ecode = none ∧
      exec .pmrun { b with c := s.c } = .next d ∧ d.c = 1 ∧
      exec .pmcheck d = .next { d with ecode := none, einfo := 0 }

/-- R73: with the terms of R64, two messages that differ in one symbol, or start from different accumulators, never
leave the same accumulator. -/
def Obligations.OneChangedSymbolChangesTheChecksum : Prop :=
  (∀ (c : Acc) (xs ys : List Group) (a b : Group), a ≠ b →
    polymod pmGen c (xs ++ a :: ys) ≠ polymod pmGen c (xs ++ b :: ys)) ∧
  (∀ (c c' : Acc) (xs : List Group), c ≠ c' → polymod pmGen c xs ≠ polymod pmGen c' xs)

/-- R76, R74: VENC. -/
def Obligations.VencBuildsTheVersionByte : Prop :=
  decode 0x0D = .ok .venc ∧
    (∀ (s : State) (k : Nat), [20, 24, 28, 32, 40, 48, 56, 64][k]? = some s.arg1.toNat → s.arg0.toNat ≤ 1 →
      exec .venc s = .next { s with res0 := BitVec.ofNat 8 (8 * s.arg0.toNat + k), ecode := none, einfo := 0 }) ∧
    (∀ s : State, s.arg1.toNat ∉ [20, 24, 28, 32, 40, 48, 56, 64] → exec .venc s = .next
      { s with ecode := some .unsupportedLength, einfo := 0 }) ∧
    (∀ s : State, s.arg1.toNat ∈ [20, 24, 28, 32, 40, 48, 56, 64] → 1 < s.arg0.toNat → exec .venc s = .next
      { s with ecode := some .unsupportedType, einfo := 0 })

/-- R77, R75: VDEC. -/
def Obligations.VdecTakesTheVersionByteApart : Prop :=
  decode 0x0E = .ok .vdec ∧
    ∀ s : State, exec .vdec s = .next
      { s with res0 := BitVec.ofNat 8 (s.arg0.toNat / 8),
               res1 := BitVec.ofNat 8 ([20, 24, 28, 32, 40, 48, 56, 64].getD (s.arg0.toNat % 8) 0),
               ecode := none, einfo := 0 }

/-- R79: the two functions of the version byte are inverse where the type is one of the two, and encoding refuses the
type field of every other byte. -/
def Obligations.VersionByteRoundTrip : Prop :=
  (∀ t n b : Byte, versionEncode t n = .ok b → (versionDecode b).1.setWidth 8 = t ∧ (versionDecode b).2 = n) ∧
    (∀ t n : Byte, t.toNat ≤ 1 → n.toNat ∈ [20, 24, 28, 32, 40, 48, 56, 64] → ∃ b, versionEncode t n = .ok b) ∧
    (∀ b : Byte, b.extractLsb' 4 4 = 0 →
      versionEncode ((versionDecode b).1.setWidth 8) (versionDecode b).2 = .ok b) ∧
    (∀ b : Byte, b.extractLsb' 4 4 ≠ 0 →
      versionEncode ((versionDecode b).1.setWidth 8) (versionDecode b).2 = .error .unsupportedType)

/-- R94: the whole effect of a failed command word on the state: `CMD`, `ECODE`, `EINFO`, and the host's transaction
is consumed. -/
def Obligations.FailedCommandChangesOnlyTheStatus : Prop :=
  ∀ (s t : State) (rest : List HostEvent) (w : Byte) (k : ErrorKind),
    s.pending = .write 0x000 w :: rest → step s = .next t → t.ecode = some k →
      (∃ info, t = { s with pending := rest, cmd := w, ecode := some k, einfo := info }) ∧
        statusByte t.ecode = 0x80 ||| k.code.setWidth 8

/-- R95: a command word that does not raise leaves the word in `CMD`, `ECODE` and `EINFO` 0, and is a legal one. -/
def Obligations.SuccessfulCommandClearsTheStatus : Prop :=
  ∀ (s t : State) (rest : List HostEvent) (w : Byte),
    s.pending = .write 0x000 w :: rest → step s = .next t → t.ecode = none →
      (∃ i, decode w = .ok i) ∧ t.cmd = w ∧ t.einfo = 0 ∧ statusByte t.ecode = 0x00

/-- R92, its middle column: the kinds a command can raise, NOP, CLR, PMINIT and VDEC none; and each is raised in some
state with all its cells. -/
def Obligations.CommandsRaiseExactlyTheirKinds : Prop :=
  (∀ (i : Instr) (s t : State) (k : ErrorKind), exec i s = .next t → t.ecode = some k → k ∈ kindsOf i) ∧
    (∀ (i : Instr) (k : ErrorKind), k ∈ kindsOf i →
      ∃ s t : State, s.sb.wf = true ∧ exec i s = .next t ∧ t.ecode = some k)

/-- R93: `EINFO` is not 0 only for the three indexed kinds raised by B32DS, B32ES, RG58 or PMRUN, and is then the index
of a valid cell. -/
def Obligations.EinfoIsTheIndexOfAValidCell : Prop :=
  ∀ (i : Instr) (s t : State), exec i s = .next t → t.einfo ≠ 0 →
    (i = .b32ds ∨ i = .b32es ∨ i = .rg58 ∨ i = .pmrun) ∧
    (t.ecode = some .invalidCharacter ∨ t.ecode = some .mixedCaseError ∨ t.ecode = some .invalidValue) ∧
    t.einfo.toNat < s.slen.toNat ∧ s.slen.toNat ≤ Config.sbDepth

/-- R9, R93, R97: no command reads the status: what a command does is the same whatever `ECODE` and `EINFO` were; so
a failed command reissued on the state it left fails again with the same kind and the same `EINFO`. -/
def Obligations.NoCommandReadsTheStatus : Prop :=
  (∀ (i : Instr) (s : State) (e : Option ErrorKind) (x : Byte),
    exec i { s with ecode := e, einfo := x } = exec i s) ∧
    ∀ (i : Instr) (s t : State), exec i s = .next t → t.ecode ≠ none → exec i t = .next t

/-- R7, R11 to R14, the column "written by the block": which commands may change which part of the state, and no
command touches `CMD`, the generator terms or the host's side. -/
def Obligations.EachRegisterHasItsWriters : Prop :=
  ∀ (i : Instr) (s t : State), exec i s = .next t →
    t.cmd = s.cmd ∧ t.pending = s.pending ∧ t.replies = s.replies ∧ t.resets = s.resets ∧ t.gen = s.gen ∧
    (i ∉ [.rg85, .rg58, .pmembed, .clr] → t.slen = s.slen) ∧
    (i ≠ .clr → t.arg0 = s.arg0 ∧ t.arg1 = s.arg1) ∧
    (i ∉ [.b32e, .b32d, .venc, .vdec, .clr] → t.res0 = s.res0) ∧
    (i ∉ [.vdec, .clr] → t.res1 = s.res1) ∧
    (i ∉ [.pminit, .pmpush, .pmrun, .pmembed, .clr] → t.c = s.c) ∧
    (i ∉ [.b32es, .b32ds, .rg85, .rg58, .pmembed] → t.sb = s.sb)

/-- R15, R11, R103: nothing a command computes depends on the cells at or above `SLEN`: with other contents there, all
else comes out the same, the valid cells among it, and each other cell keeps what it held. -/
def Obligations.StaleCellsAreNeverAnInput : Prop :=
  ∀ (i : Instr) (s : State) (m : Memory), s.sb.wf = true → m.wf = true →
    (∀ j < s.slen.toNat, m.read j = s.sb.read j) →
    ∃ t n, exec i s = .next t ∧ exec i { s with sb := m } = .next { t with sb := n } ∧
      (∀ j < t.slen.toNat, n.read j = t.sb.read j) ∧
      ∀ j, n.read j = t.sb.read j ∨ (t.sb.read j = s.sb.read j ∧ n.read j = m.read j)

/-- R25: the commands whose second execution finds the same inputs. -/
def Obligations.CommandsThatKeepTheirInputsAreIdempotent : Prop :=
  ∀ (i : Instr) (s t : State), i ∈ [.nop, .clr, .pminit, .pmcheck, .b32e, .b32d, .venc, .vdec] →
    exec i s = .next t → exec i t = .next t

/-- The invariant of the block (R15, R30, R9, R93, R95, R13, R75) is kept by every step: host writes, reads, commands,
illegal words and resets alike; and no step changes the generator terms (R29, R102). -/
def Obligations.EveryStepKeepsTheInvariant : Prop :=
  (∀ s t : State, s.toBlock.Inv → step s = .next t → t.toBlock.Inv) ∧
    ∀ s t : State, step s = .next t → t.gen = s.gen

/-- The state after reset meets the invariant, whatever the cells of `SB` hold. -/
def Obligations.ResetMeetsTheInvariant : Prop :=
  State.reset.toBlock.Inv ∧ ∀ n, (Block.afterReset n).Inv

/-- R89 item 1, D13: decoding an encoded address gives back the prefix, the type and the hash, from any two states of
blocks that have the same table of terms, whichever it is, and with any default prefix. The prefix is lower case and has no colon, as R89 reads "valid prefix". Item 5: with the
terms of R64 the two literal addresses of D0 come out character for character when D0's hash is encoded as P2KH (0) and as P2SH (1), and
decode to it. -/
def Obligations.DecodeOfEncodeIsTheInput : Prop :=
  (∀ (s s' : State) (dflt : Option (List Byte)) (pfx : List Byte) (t : Byte) (hash : List Byte),
    s.sb.wf = true → s'.sb.wf = true → s.gen = s'.gen → ValidPrefix pfx → t.toNat ≤ 1 →
    hash.length ∈ [20, 24, 28, 32, 40, 48, 56, 64] →
    ∃ str, runResult (encodeAddress s pfx t hash) = some (.ok str) ∧
      runResult (decodeAddress s' dflt str) = some (.ok ⟨pfx, t, hash⟩)) ∧
  ∀ (s : State) (dflt : Option (List Byte)) (t : Byte) (str : List Byte), s.sb.wf = true → s.gen = pmGen →
    (t, str) ∈ literalAddresses →
    runResult (encodeAddress s literalPrefix t literalHash) = some (.ok str) ∧
    runResult (decodeAddress s dflt str) = some (.ok ⟨literalPrefix, t, literalHash⟩)

/-- R86, R89 item 2: a valid address in upper case decodes alike, under the same table of terms, whichever it is; and a string whose body, with or without a prefix and
a colon before it, mixes cases fails: with `MixedCaseError`, or, where the body does not fit in `SB`, with the
`CapacityExceeded` that R85 step 3 reports first. -/
def Obligations.UpperCaseAddressDecodesAlike : Prop :=
  (∀ (s s' : State) (dflt : Option (List Byte)) (str : List Byte) (a : Address), s.sb.wf = true → s'.sb.wf = true →
    s.gen = s'.gen →
    runResult (decodeAddress s dflt str) = some (.ok a) →
    runResult (decodeAddress s' dflt (upperCased str)) = some (.ok a)) ∧
  ∀ (s : State) (dflt : Option (List Byte)) (str body : List Byte), s.sb.wf = true → 0x3A ∉ body →
    (str = body ∨ ∃ pfx, str = pfx ++ 0x3A :: body) → MixesCases body →
    runResult (decodeAddress s dflt str) = some (.error (.kind
      (if body.length ≤ Config.sbDepth then .mixedCaseError else .capacityExceeded)))

/-- R73, R89 item 3, with the terms of R64: one character of the body of a valid address replaced by another alphabet character, the body
still of one case, makes decoding fail with `ChecksumMismatch`. -/
def Obligations.SubstitutedCharacterFailsTheChecksum : Prop :=
  ∀ (s s' : State) (dflt : Option (List Byte)) (pfx body body' : List Byte) (a : Address),
    s.sb.wf = true → s'.sb.wf = true → s.gen = pmGen → s'.gen = pmGen → 0x3A ∉ body →
    runResult (decodeAddress s dflt (pfx ++ 0x3A :: body)) = some (.ok a) → OneSubstituted body body' →
    runResult (decodeAddress s' dflt (pfx ++ 0x3A :: body')) = some (.error (.kind .checksumMismatch))

/-- R73, R89 item 4, with the terms of R64: a body encoded under one prefix fails with `ChecksumMismatch` under every prefix whose expanded
form leaves another accumulator. -/
def Obligations.OtherPrefixFailsTheChecksum : Prop :=
  ∀ (s s' : State) (dflt : Option (List Byte)) (pfx other : List Byte) (t : Byte) (hash body : List Byte),
    s.sb.wf = true → s'.sb.wf = true → s.gen = pmGen → s'.gen = pmGen →
    runResult (encodeAddress s pfx t hash) = some (.ok (pfx ++ 0x3A :: body)) →
    polymod pmGen 1 (expandPrefix (other.map toLower)) ≠ polymod pmGen 1 (expandPrefix pfx) →
    runResult (decodeAddress s' dflt (other ++ 0x3A :: body)) = some (.error (.kind .checksumMismatch))

/-- R83: the result of a run depends only on its inputs and on the instance's fixed table of terms, whichever it is, not
on the state it starts from. -/
def Obligations.RunsDependOnlyOnTheirInputs : Prop :=
  ∀ s s' : State, s.sb.wf = true → s'.sb.wf = true → s.gen = s'.gen →
    (∀ (pfx : List Byte) (t : Byte) (hash : List Byte),
      runResult (encodeAddress s pfx t hash) = runResult (encodeAddress s' pfx t hash)) ∧
    (∀ (dflt : Option (List Byte)) (str : List Byte),
      runResult (decodeAddress s dflt str) = runResult (decodeAddress s' dflt str))

/-- R84, R89 item 6: a hash whose length is not one of the eight fails with `InvalidHashLength` whatever the type, no
transaction issued; a legal length with another type fails with `UnsupportedType`. -/
def Obligations.EncodeReportsLengthThenType : Prop :=
  ∀ (s : State) (pfx : List Byte) (t : Byte) (hash : List Byte),
    (hash.length ∉ [20, 24, 28, 32, 40, 48, 56, 64] →
      encodeAddress s pfx t hash = .next ⟨s, .error .invalidHashLength⟩) ∧
    (hash.length ∈ [20, 24, 28, 32, 40, 48, 56, 64] → 1 < t.toNat →
      runResult (encodeAddress s pfx t hash) = some (.error (.kind .unsupportedType)))

/-- R87: without a colon, and with the default prefix absent as R6 has it, a string of alphabet characters of one case that fits fails with
`MissingPrefix`; with a default prefix it decodes as if that prefix and a colon stood before it. -/
def Obligations.MissingColonUsesTheDefaultPrefix : Prop :=
  ∀ (s : State) (str : List Byte), s.sb.wf = true → 0x3A ∉ str →
    (str.length ≤ Config.sbDepth → (∀ u ∈ str, charToValue u ≠ none) → ¬ MixesCases str →
      runResult (decodeAddressDefault s str) = some (.error .missingPrefix)) ∧
    (∀ (p : List Byte) (dflt : Option (List Byte)),
      runResult (decodeAddress s (some p) str) = runResult (decodeAddress s dflt (p ++ 0x3A :: str)))
end

