-- ==== Sys2Proof/Laws/State.lean ====
section
/-! SUPPORT. One lemma per field per named update of the state. -/

namespace Sys2Proof.Machine

variable (s : State)

@[simp] theorem State.withStatus_cmd (e : Option ErrorKind) (x : Byte) : (s.withStatus e x).cmd = s.cmd := rfl
@[simp] theorem State.withStatus_ecode (e : Option ErrorKind) (x : Byte) : (s.withStatus e x).ecode = e := rfl
@[simp] theorem State.withStatus_einfo (e : Option ErrorKind) (x : Byte) : (s.withStatus e x).einfo = x := rfl
@[simp] theorem State.withStatus_slen (e : Option ErrorKind) (x : Byte) : (s.withStatus e x).slen = s.slen := rfl
@[simp] theorem State.withStatus_arg0 (e : Option ErrorKind) (x : Byte) : (s.withStatus e x).arg0 = s.arg0 := rfl
@[simp] theorem State.withStatus_arg1 (e : Option ErrorKind) (x : Byte) : (s.withStatus e x).arg1 = s.arg1 := rfl
@[simp] theorem State.withStatus_res0 (e : Option ErrorKind) (x : Byte) : (s.withStatus e x).res0 = s.res0 := rfl
@[simp] theorem State.withStatus_res1 (e : Option ErrorKind) (x : Byte) : (s.withStatus e x).res1 = s.res1 := rfl
@[simp] theorem State.withStatus_c (e : Option ErrorKind) (x : Byte) : (s.withStatus e x).c = s.c := rfl
@[simp] theorem State.withStatus_sb (e : Option ErrorKind) (x : Byte) : (s.withStatus e x).sb = s.sb := rfl
@[simp] theorem State.withStatus_pending (e : Option ErrorKind) (x : Byte) : (s.withStatus e x).pending = s.pending := rfl
@[simp] theorem State.withStatus_replies (e : Option ErrorKind) (x : Byte) : (s.withStatus e x).replies = s.replies := rfl
@[simp] theorem State.withStatus_resets (e : Option ErrorKind) (x : Byte) : (s.withStatus e x).resets = s.resets := rfl
@[simp] theorem State.withStatus_gen (e : Option ErrorKind) (x : Byte) : (s.withStatus e x).gen = s.gen := rfl

@[simp] theorem State.withCmd_cmd (w : Byte) : (s.withCmd w).cmd = w := rfl
@[simp] theorem State.withCmd_ecode (w : Byte) : (s.withCmd w).ecode = s.ecode := rfl
@[simp] theorem State.withCmd_einfo (w : Byte) : (s.withCmd w).einfo = s.einfo := rfl
@[simp] theorem State.withCmd_slen (w : Byte) : (s.withCmd w).slen = s.slen := rfl
@[simp] theorem State.withCmd_arg0 (w : Byte) : (s.withCmd w).arg0 = s.arg0 := rfl
@[simp] theorem State.withCmd_arg1 (w : Byte) : (s.withCmd w).arg1 = s.arg1 := rfl
@[simp] theorem State.withCmd_res0 (w : Byte) : (s.withCmd w).res0 = s.res0 := rfl
@[simp] theorem State.withCmd_res1 (w : Byte) : (s.withCmd w).res1 = s.res1 := rfl
@[simp] theorem State.withCmd_c (w : Byte) : (s.withCmd w).c = s.c := rfl
@[simp] theorem State.withCmd_sb (w : Byte) : (s.withCmd w).sb = s.sb := rfl
@[simp] theorem State.withCmd_pending (w : Byte) : (s.withCmd w).pending = s.pending := rfl
@[simp] theorem State.withCmd_replies (w : Byte) : (s.withCmd w).replies = s.replies := rfl
@[simp] theorem State.withCmd_resets (w : Byte) : (s.withCmd w).resets = s.resets := rfl
@[simp] theorem State.withCmd_gen (w : Byte) : (s.withCmd w).gen = s.gen := rfl

@[simp] theorem State.withCells_cmd (b : Nat) (vs : List Byte) : (s.withCells b vs).cmd = s.cmd := rfl
@[simp] theorem State.withCells_ecode (b : Nat) (vs : List Byte) : (s.withCells b vs).ecode = s.ecode := rfl
@[simp] theorem State.withCells_einfo (b : Nat) (vs : List Byte) : (s.withCells b vs).einfo = s.einfo := rfl
@[simp] theorem State.withCells_slen (b : Nat) (vs : List Byte) : (s.withCells b vs).slen = s.slen := rfl
@[simp] theorem State.withCells_arg0 (b : Nat) (vs : List Byte) : (s.withCells b vs).arg0 = s.arg0 := rfl
@[simp] theorem State.withCells_arg1 (b : Nat) (vs : List Byte) : (s.withCells b vs).arg1 = s.arg1 := rfl
@[simp] theorem State.withCells_res0 (b : Nat) (vs : List Byte) : (s.withCells b vs).res0 = s.res0 := rfl
@[simp] theorem State.withCells_res1 (b : Nat) (vs : List Byte) : (s.withCells b vs).res1 = s.res1 := rfl
@[simp] theorem State.withCells_c (b : Nat) (vs : List Byte) : (s.withCells b vs).c = s.c := rfl
@[simp] theorem State.withCells_sb (b : Nat) (vs : List Byte) : (s.withCells b vs).sb = s.sb.writeFrom b vs := rfl
@[simp] theorem State.withCells_pending (b : Nat) (vs : List Byte) : (s.withCells b vs).pending = s.pending := rfl
@[simp] theorem State.withCells_replies (b : Nat) (vs : List Byte) : (s.withCells b vs).replies = s.replies := rfl
@[simp] theorem State.withCells_resets (b : Nat) (vs : List Byte) : (s.withCells b vs).resets = s.resets := rfl
@[simp] theorem State.withCells_gen (b : Nat) (vs : List Byte) : (s.withCells b vs).gen = s.gen := rfl

@[simp] theorem Block.afterReset_cmd (n : Nat) : (Block.afterReset n).cmd = 0 := rfl
@[simp] theorem Block.afterReset_ecode (n : Nat) : (Block.afterReset n).ecode = none := rfl
@[simp] theorem Block.afterReset_einfo (n : Nat) : (Block.afterReset n).einfo = 0 := rfl
@[simp] theorem Block.afterReset_slen (n : Nat) : (Block.afterReset n).slen = 0 := rfl
@[simp] theorem Block.afterReset_arg0 (n : Nat) : (Block.afterReset n).arg0 = 0 := rfl
@[simp] theorem Block.afterReset_arg1 (n : Nat) : (Block.afterReset n).arg1 = 0 := rfl
@[simp] theorem Block.afterReset_res0 (n : Nat) : (Block.afterReset n).res0 = 0 := rfl
@[simp] theorem Block.afterReset_res1 (n : Nat) : (Block.afterReset n).res1 = 0 := rfl
@[simp] theorem Block.afterReset_c (n : Nat) : (Block.afterReset n).c = 1 := rfl
@[simp] theorem Block.afterReset_sb (n : Nat) : (Block.afterReset n).sb = Memory.afterReset n := rfl

@[simp] theorem resetBlock_cmd : (resetBlock s).cmd = (Block.afterReset (s.resets + 1)).cmd := rfl
@[simp] theorem resetBlock_ecode : (resetBlock s).ecode = (Block.afterReset (s.resets + 1)).ecode := rfl
@[simp] theorem resetBlock_einfo : (resetBlock s).einfo = (Block.afterReset (s.resets + 1)).einfo := rfl
@[simp] theorem resetBlock_slen : (resetBlock s).slen = (Block.afterReset (s.resets + 1)).slen := rfl
@[simp] theorem resetBlock_arg0 : (resetBlock s).arg0 = (Block.afterReset (s.resets + 1)).arg0 := rfl
@[simp] theorem resetBlock_arg1 : (resetBlock s).arg1 = (Block.afterReset (s.resets + 1)).arg1 := rfl
@[simp] theorem resetBlock_res0 : (resetBlock s).res0 = (Block.afterReset (s.resets + 1)).res0 := rfl
@[simp] theorem resetBlock_res1 : (resetBlock s).res1 = (Block.afterReset (s.resets + 1)).res1 := rfl
@[simp] theorem resetBlock_c : (resetBlock s).c = (Block.afterReset (s.resets + 1)).c := rfl
@[simp] theorem resetBlock_sb : (resetBlock s).sb = (Block.afterReset (s.resets + 1)).sb := rfl
@[simp] theorem resetBlock_pending : (resetBlock s).pending = s.pending := rfl
@[simp] theorem resetBlock_replies : (resetBlock s).replies = s.replies := rfl
@[simp] theorem resetBlock_resets : (resetBlock s).resets = s.resets + 1 := rfl
@[simp] theorem resetBlock_gen : (resetBlock s).gen = s.gen := rfl

/-- Writing the status twice keeps the second. -/
@[simp] theorem State.withStatus_withStatus (e e' : Option ErrorKind) (x x' : Byte) :
    (s.withStatus e x).withStatus e' x' = s.withStatus e' x' := rfl

/-- The valid part of the buffer does not depend on the status. -/
@[simp] theorem State.withStatus_sbv (e : Option ErrorKind) (x : Byte) : (s.withStatus e x).sbv = s.sbv := rfl

/-- The valid part of the buffer does not depend on `CMD`. -/
@[simp] theorem State.withCmd_sbv (w : Byte) : (s.withCmd w).sbv = s.sbv := rfl

end Sys2Proof.Machine
end

