-- ==== Sys2Proof/Laws/Memory.lean ====
section
/-! SUPPORT. The laws of the symbol buffer: every operation keeps its form, a read after a write, and what a run of
writes leaves in every cell. -/

namespace Sys2Proof.Machine

/-- The form of the buffer is that of its list of indices. -/
theorem Memory.wf_iff (m : Memory) : m.wf = true ↔ m.map Prod.fst = List.range Config.sbDepth := by
  simp [Memory.wf]

/-- A write changes no index. -/
@[simp] theorem Memory.write_indices (m : Memory) (i : Nat) (v : Byte) :
    (m.write i v).map Prod.fst = m.map Prod.fst := by
  simp only [Memory.write, List.map_map]
  refine List.map_congr_left fun cell _ => ?_
  by_cases h : cell.1 = i <;> simp [h]

/-- A write keeps the form of the buffer. -/
@[simp] theorem Memory.write_wf (m : Memory) (i : Nat) (v : Byte) : (m.write i v).wf = m.wf := by
  simp [Memory.wf]

/-- A run of writes keeps the form of the buffer. -/
@[simp] theorem Memory.writeFrom_wf (m : Memory) (base : Nat) (vs : List Byte) :
    (m.writeFrom base vs).wf = m.wf := by
  induction vs generalizing m base with
  | nil => rfl
  | cons v vs ih => simp [Memory.writeFrom, ih]

/-- The buffer after a reset has its form. -/
@[simp] theorem Memory.afterReset_wf (n : Nat) : (Memory.afterReset n).wf = true := by
  simp [Memory.wf_iff, Memory.afterReset, Function.comp_def]

/-- A cell is read exactly if its index is listed. -/
theorem Memory.read_isSome (m : Memory) (i : Nat) : (m.read i).isSome = true ↔ i ∈ m.map Prod.fst := by
  simp [Memory.read, List.find?_isSome]

/-- In a buffer of the right form exactly the cells below `SB_DEPTH` exist (R30). -/
theorem Memory.read_isSome_of_wf {m : Memory} (h : m.wf = true) (i : Nat) :
    (m.read i).isSome = true ↔ i < Config.sbDepth := by
  rw [Memory.read_isSome, (Memory.wf_iff m).1 h, List.mem_range]

/-- Reading one pair more at the front. -/
theorem Memory.read_cons (a : Nat) (b : Byte) (m : Memory) (i : Nat) :
    Memory.read ((a, b) :: m) i = if a = i then some b else Memory.read m i := by
  by_cases h : a = i <;> simp [Memory.read, h]

/-- A write at one index leaves every other cell alone. -/
theorem Memory.read_write_of_ne (m : Memory) {i j : Nat} (v : Byte) (h : j ≠ i) :
    (m.write i v).read j = m.read j := by
  induction m with
  | nil => rfl
  | cons cell m ih =>
    obtain ⟨a, b⟩ := cell
    have hw : Memory.write ((a, b) :: m) i v = (if a = i then (i, v) else (a, b)) :: Memory.write m i v := rfl
    by_cases ha : a = i
    · subst ha
      rw [hw, if_pos rfl, Memory.read_cons, Memory.read_cons, if_neg (Ne.symm h), if_neg (Ne.symm h), ih]
    · rw [hw, if_neg ha, Memory.read_cons, Memory.read_cons, ih]

/-- A read after a write to the same cell gives the value written, where the cell exists. -/
theorem Memory.read_write_self (m : Memory) (i : Nat) (v : Byte) :
    (m.write i v).read i = (m.read i).map fun _ => v := by
  induction m with
  | nil => rfl
  | cons cell m ih =>
    obtain ⟨a, b⟩ := cell
    have hw : Memory.write ((a, b) :: m) i v = (if a = i then (i, v) else (a, b)) :: Memory.write m i v := rfl
    by_cases ha : a = i
    · rw [hw, if_pos ha, Memory.read_cons, Memory.read_cons, if_pos rfl, if_pos ha]; rfl
    · rw [hw, if_neg ha, Memory.read_cons, Memory.read_cons, if_neg ha, if_neg ha, ih]

/-- What a write leaves in every cell of a buffer of the right form. -/
theorem Memory.read_write {m : Memory} (h : m.wf = true) {i : Nat} (hi : i < Config.sbDepth) (v : Byte) (j : Nat) :
    (m.write i v).read j = if j = i then some v else m.read j := by
  by_cases hj : j = i
  · subst hj
    obtain ⟨u, hu⟩ := Option.isSome_iff_exists.1 ((Memory.read_isSome_of_wf h j).2 hi)
    rw [if_pos rfl, Memory.read_write_self, hu]; rfl
  · rw [if_neg hj, Memory.read_write_of_ne m v hj]

/-- What a run of writes inside the buffer leaves: `vs` from `base` on, every other cell as it was. -/
theorem Memory.writeFrom_overwritten {m : Memory} (h : m.wf = true) (base : Nat) (vs : List Byte)
    (hb : base + vs.length ≤ Config.sbDepth) : m.Overwritten (m.writeFrom base vs) base vs := by
  refine ⟨by simpa using h, fun j => ?_⟩
  induction vs generalizing m base with
  | nil =>
    rw [Memory.writeFrom, if_neg (by simp only [List.length_nil]; omega)]
  | cons v vs ih =>
    simp only [List.length_cons] at hb
    rw [Memory.writeFrom, ih (by simpa using h) (base + 1) (by omega), Memory.read_write h (by omega)]
    by_cases hj : j = base
    · subst hj
      simp
    · by_cases hlt : base + 1 ≤ j ∧ j < base + 1 + vs.length
      · rw [if_pos hlt, if_pos (by simp only [List.length_cons]; omega)]
        rw [show j - base = (j - (base + 1)) + 1 by omega, List.getElem?_cons_succ]
      · rw [if_neg hlt, if_neg hj, if_neg (by simp only [List.length_cons]; omega)]

/-- The first cells of the buffer are as many as there are, at most `n`. -/
theorem Memory.firstCells_length_le (m : Memory) (n : Nat) : (m.firstCells n).length ≤ n := by
  simpa [Memory.firstCells] using List.length_filterMap_le m.read (List.range n)

/-- Buffers whose first `n` cells read alike have the same first `n` cells. -/
theorem Memory.firstCells_congr {m m' : Memory} {n : Nat} (h : ∀ j < n, m.read j = m'.read j) :
    m.firstCells n = m'.firstCells n :=
  List.filterMap_congr fun j hj => h j (List.mem_range.1 hj)

/-- The first cells of the buffer, from what each cell reads as. -/
theorem Memory.firstCells_of_read (m : Memory) (xs : List Byte) (h : ∀ j < xs.length, m.read j = xs[j]?) :
    m.firstCells xs.length = xs := by
  induction xs using List.reverseRecOn with
  | nil => rfl
  | append_singleton xs x ih =>
    have hx : m.read xs.length = some x := by
      rw [h xs.length (by simp)]; simp
    have ih' := ih fun j hj => by
      rw [h j (by simp; omega), List.getElem?_append_left hj]
    rw [Memory.firstCells] at ih' ⊢
    rw [List.length_append, List.length_singleton, List.range_succ, List.filterMap_append, ih']
    simp [hx]

/-- The valid part of the buffer is the list a claim names. -/
theorem State.sbv_of_sbvIs {s : State} {xs : List Byte} (h : s.sbvIs xs) : s.sbv = xs := by
  rw [State.sbv, ← h.1]
  exact Memory.firstCells_of_read _ _ h.2

/-- Where `SBV` is a list, it fits in the buffer. -/
theorem State.slen_le_of_sbvIs {s : State} {xs : List Byte} (hw : s.sb.wf = true) (h : s.sbvIs xs) :
    s.slen.toNat ≤ Config.sbDepth := by
  rcases Nat.eq_zero_or_pos s.slen.toNat with h0 | h0
  · omega
  · have hl : s.slen.toNat - 1 < xs.length := by have := h.1; omega
    have := (Memory.read_isSome_of_wf hw (s.slen.toNat - 1)).1 (by rw [h.2 _ hl]; simp [hl])
    omega

end Sys2Proof.Machine
end

