-- ==== Sys2Proof/Laws/Ops.lean ====
section
/-! SUPPORT. What the shared operations can do: how a command ends, and the checks of its operands. -/

namespace Sys2Proof.Machine

/-- A command that raises (R94). -/
@[simp] theorem complete_error (s : State) (r : Raise) :
    complete s (.error r) = .next (s.withStatus (some r.kind) r.info) := rfl

/-- A command that does not raise (R95). -/
@[simp] theorem complete_ok (s t : State) : complete s (.ok t) = .next (t.withStatus none 0) := rfl

/-- Everything the end of a command can be: a raise on the state it found, or its writes with the status cleared. -/
theorem complete_cases {s t : State} {e : Except Raise State} (h : complete s e = .next t) :
    (∃ r, e = .error r ∧ t = s.withStatus (some r.kind) r.info) ∨
      (∃ u, e = .ok u ∧ t = u.withStatus none 0) := by
  cases e with
  | error r => exact .inl ⟨r, rfl, by simpa using h.symm⟩
  | ok u => exact .inr ⟨u, rfl, by simpa using h.symm⟩

/-- Every command ends in a next state. -/
theorem complete_next (s : State) (e : Except Raise State) : ∃ t, complete s e = .next t := by
  cases e with
  | error r => exact ⟨_, rfl⟩
  | ok u => exact ⟨_, rfl⟩

/-- The scalar operand check (R92): 0 to 31 pass. -/
theorem scalarGroup_ok {b : Byte} (h : b.toNat ≤ 31) : scalarGroup b = .ok (toGroup b) := by
  simp [scalarGroup, isGroup, h]

/-- The scalar operand check (R92): above 31 it raises. -/
theorem scalarGroup_error {b : Byte} (h : 31 < b.toNat) : scalarGroup b = .error ⟨.invalidValue, 0⟩ := by
  have : ¬ b.toNat ≤ 31 := by omega
  simp [scalarGroup, isGroup, this]

/-- Everything the scalar operand check can answer. -/
theorem scalarGroup_cases (b : Byte) :
    (b.toNat ≤ 31 ∧ scalarGroup b = .ok (toGroup b)) ∨
      (31 < b.toNat ∧ scalarGroup b = .error ⟨.invalidValue, 0⟩) := by
  rcases Nat.lt_or_ge 31 b.toNat with h | h
  · exact .inr ⟨h, scalarGroup_error h⟩
  · exact .inl ⟨h, scalarGroup_ok h⟩

/-- Everything the capacity check can answer. -/
theorem checkCapacity_cases (n : Nat) :
    (n ≤ Config.sbDepth ∧ checkCapacity n = .ok ()) ∨
      (Config.sbDepth < n ∧ checkCapacity n = .error ⟨.capacityExceeded, 0⟩) := by
  rcases Nat.lt_or_ge Config.sbDepth n with h | h
  · exact .inr ⟨h, if_neg (by omega)⟩
  · exact .inl ⟨h, if_pos h⟩

/-- Everything the check of a list of cells can answer: no bad cell, or the lowest bad index. -/
theorem checkCells_cases (kind : ErrorKind) (bad : Byte → Bool) (xs : List Byte) :
    ((∀ x ∈ xs, bad x = false) ∧ checkCells kind bad xs = .ok ()) ∨
      (∃ i, ∃ hi : i < xs.length, bad xs[i] = true ∧ (∀ j, ∀ hj : j < i, bad xs[j] = false) ∧
        checkCells kind bad xs = .error ⟨kind, indexInfo i⟩) := by
  cases h : xs.findIdx? bad with
  | none =>
    refine .inl ⟨fun x hx => ?_, by simp [checkCells, h]⟩
    simpa using List.findIdx?_eq_none_iff.1 h x hx
  | some i =>
    obtain ⟨hi, hb, hj⟩ := List.findIdx?_eq_some_iff_getElem.1 h
    exact .inr ⟨i, hi, hb, fun j hji => by simpa using hj j hji, by simp [checkCells, h]⟩

/-- Everything the buffer operand can be (R11, R92). -/
theorem bufferOperand_cases (s : State) :
    (s.slen.toNat ≤ Config.sbDepth ∧ bufferOperand s = .ok s.sbv) ∨
      (Config.sbDepth < s.slen.toNat ∧ bufferOperand s = .error ⟨.capacityExceeded, 0⟩) := by
  rcases checkCapacity_cases s.slen.toNat with ⟨h, hc⟩ | ⟨h, hc⟩
  · exact .inl ⟨h, by simp only [bufferOperand, hc]; rfl⟩
  · exact .inr ⟨h, by simp only [bufferOperand, hc]; rfl⟩

/-- Everything the groups operand can be (R92): the groups, `CapacityExceeded`, or `InvalidValue` at the lowest index
of a cell above 31. -/
theorem groupsOperand_cases (s : State) :
    (s.slen.toNat ≤ Config.sbDepth ∧ (∀ x ∈ s.sbv, x.toNat ≤ 31) ∧ groupsOperand s = .ok (s.sbv.map toGroup)) ∨
      (Config.sbDepth < s.slen.toNat ∧ groupsOperand s = .error ⟨.capacityExceeded, 0⟩) ∨
      (s.slen.toNat ≤ Config.sbDepth ∧ ∃ i, ∃ hi : i < s.sbv.length, 31 < (s.sbv[i]).toNat ∧
        (∀ j, ∀ hj : j < i, (s.sbv[j]).toNat ≤ 31) ∧ groupsOperand s = .error ⟨.invalidValue, indexInfo i⟩) := by
  rcases bufferOperand_cases s with ⟨h, hb⟩ | ⟨h, hb⟩
  · rcases checkCells_cases .invalidValue (fun b => !isGroup b) s.sbv with ⟨hg, hc⟩ | ⟨i, hi, hbad, hj, hc⟩
    · refine .inl ⟨h, fun x hx => by simpa [isGroup] using hg x hx, ?_⟩
      simp only [groupsOperand, hb]
      simp only [bind, Except.bind, hc]; rfl
    · refine .inr (.inr ⟨h, i, hi, by simpa [isGroup] using hbad,
        fun j hji => by simpa [isGroup] using hj j hji, ?_⟩)
      simp only [groupsOperand, hb]
      simp only [bind, Except.bind, hc]
  · exact .inr (.inl ⟨h, by simp only [groupsOperand, hb]; rfl⟩)

/-- A host write to a register other than `CMD` that the host may not write changes nothing (R22). -/
theorem hostWrite_ignored (v : Byte) (s : State) (r : HostReg) (h : r.writable = false)
    (hsb : ∀ i, r ≠ .sb i) : hostWrite v s r = .next s := by
  cases r <;> simp_all [hostWrite, HostReg.writable]

end Sys2Proof.Machine
end

