-- ==== Sys2Proof/Laws/Step.lean ====
section
/-! SUPPORT. What a step can do: nothing, or the host's oldest transaction. -/

namespace Sys2Proof.Machine

/-- A step with no transaction issued (R3). -/
theorem step_idle {s : State} (h : s.pending = []) : step s = .next s := by
  simp [step, h]

/-- A step with a transaction issued (R27). -/
theorem step_pending {s : State} {e : HostEvent} {rest : List HostEvent} (h : s.pending = e :: rest) :
    step s = transact { s with pending := rest } e := by
  simp [step, h]

/-- Everything a step can be: the block idles, a command word runs, a register or cell is written, a value is read, or
the block is reset. -/
theorem step_cases (s : State) :
    (s.pending = [] ∧ step s = .next s) ∨
      ∃ rest, (∃ off v, s.pending = .write off v :: rest ∧
          step s = hostWrite v { s with pending := rest } (HostReg.ofOffset off)) ∨
        (∃ off, s.pending = .read off :: rest ∧
          step s = .next { s with pending := rest, replies := s.replies ++ [hostRead s (HostReg.ofOffset off)] }) ∨
        (s.pending = .reset :: rest ∧ step s = .next (resetBlock { s with pending := rest })) := by
  cases h : s.pending with
  | nil => exact .inl ⟨rfl, step_idle h⟩
  | cons e rest =>
    refine .inr ⟨rest, ?_⟩
    cases e with
    | write off v => exact .inl ⟨off, v, rfl, step_pending h⟩
    | read off =>
      refine .inr (.inl ⟨off, rfl, ?_⟩)
      rw [step_pending h]
      cases hr : HostReg.ofOffset off <;> simp [transact, hr, hostRead]
    | reset => exact .inr (.inr ⟨rfl, step_pending h⟩)

/-- What a write to `CMD` runs (R8). -/
theorem runWord_ok {w : Byte} {i : Instr} (h : decode w = .ok i) (s : State) :
    runWord w s = exec i (s.withCmd w) := by
  simp [runWord, h]

/-- What a write of an illegal word to `CMD` does (R82). -/
theorem runWord_error {w : Byte} {r : DecodeReject} (h : decode w = .error r) (s : State) :
    runWord w s = .next ((s.withCmd w).withStatus (some .illegalCommand) 0) := by
  simp [runWord, h, illegalCommand]

end Sys2Proof.Machine
end

