-- ==== Sys2Proof/Laws/Exec.lean ====
section
/-! SUPPORT. Every command is one use of the shared way a command ends. -/

namespace Sys2Proof.Machine

/-- Every command ends through `complete` on the state it found: with a raise (R94), or with its writes (R95). -/
theorem exec_eq_complete (i : Instr) (s : State) : ∃ e, exec i s = complete s e := by
  cases i
  case nop => unfold exec execNop; exact ⟨_, rfl⟩
  case clr => unfold exec execClr; exact ⟨_, rfl⟩
  case pminit => unfold exec execPminit; exact ⟨_, rfl⟩
  case vdec => unfold exec execVdec; exact ⟨_, rfl⟩
  all_goals exact ⟨_, rfl⟩

/-- Everything a command can answer: the state it found with an error recorded, or its writes with the status clear. -/
theorem exec_cases {i : Instr} {s t : State} (h : exec i s = .next t) :
    (∃ k info, t = s.withStatus (some k) info) ∨ ∃ u : State, t = u.withStatus none 0 := by
  obtain ⟨e, he⟩ := exec_eq_complete i s
  rw [he] at h
  rcases complete_cases h with ⟨r, _, rfl⟩ | ⟨u, _, rfl⟩
  · exact .inl ⟨r.kind, r.info, rfl⟩
  · exact .inr ⟨u, rfl⟩

end Sys2Proof.Machine
end

