-- ==== Sys2Proof/Laws/PerInstr.lean ====
section
/-! SUPPORT. The family of statements about every command as syntax. -/

namespace Sys2Proof.Laws.CommandWord

/-- A command is well formed, its word has the reserved field 7:4 clear, and its opcode is not the reserved one (R33). -/
def Statement (i : Instr) : Prop :=
  i.wellFormed = true ∧ (encode i).extractLsb' 4 4 = 0 ∧ (encode i).extractLsb' 0 4 ≠ 0xF

theorem nop : Statement .nop := by unfold Statement; decide
theorem clr : Statement .clr := by unfold Statement; decide
theorem b32e : Statement .b32e := by unfold Statement; decide
theorem b32d : Statement .b32d := by unfold Statement; decide
theorem b32es : Statement .b32es := by unfold Statement; decide
theorem b32ds : Statement .b32ds := by unfold Statement; decide
theorem rg85 : Statement .rg85 := by unfold Statement; decide
theorem rg58 : Statement .rg58 := by unfold Statement; decide
theorem pminit : Statement .pminit := by unfold Statement; decide
theorem pmpush : Statement .pmpush := by unfold Statement; decide
theorem pmrun : Statement .pmrun := by unfold Statement; decide
theorem pmembed : Statement .pmembed := by unfold Statement; decide
theorem pmcheck : Statement .pmcheck := by unfold Statement; decide
theorem venc : Statement .venc := by unfold Statement; decide
theorem vdec : Statement .vdec := by unfold Statement; decide

end Sys2Proof.Laws.CommandWord
end

