-- ==== Sys2Proof/Tests/Slice0.lean ====
section
/-! SUPPORT. The model's own tests: the transactions WellFormed refuses, command words written out from R32, one step
of each command with the result the spec's vectors give, and a witness for the hypotheses of every statement. -/

open Sys2Proof Sys2Proof.Machine

namespace Sys2Proof.Tests

/-- A state whose buffer holds `cells` and then 0xEE in every further cell, with `SLEN` the length of `cells`. -/
def withBuffer (cells : List Byte) : State :=
  { State.reset with sb := (List.range Config.sbDepth).map fun i => (i, cells.getD i 0xEE)
                     slen := BitVec.ofNat 8 cells.length }

/-- The state a command answers. -/
def after (i : Instr) (s : State) : Option State :=
  match exec i s with
  | .next t => some t
  | .fault _ => none
  | .refused _ => none

/-- The state a step answers. -/
def stepped (s : State) : Option State :=
  match step s with
  | .next t => some t
  | .fault _ => none
  | .refused _ => none

/-! ## WellFormed: a write of a read-only register, of a reserved offset and of a cell that does not exist, and a read
of a reserved offset, are refused (R21, R22, R30) -/

theorem test_write_status_ill_formed : (HostEvent.write 0x001 0x00).wellFormed = false := by decide
theorem test_write_res1_ill_formed : (HostEvent.write 0x007 0x00).wellFormed = false := by decide
theorem test_write_c4_ill_formed : (HostEvent.write 0x00C 0x00).wellFormed = false := by decide
theorem test_write_reserved_ill_formed : (HostEvent.write 0x00D 0x00).wellFormed = false := by decide
theorem test_write_absent_cell_ill_formed : (HostEvent.write 0x180 0x00).wellFormed = false := by decide
theorem test_read_reserved_ill_formed : (HostEvent.read 0x0FF).wellFormed = false := by decide
theorem test_read_absent_cell_ill_formed : (HostEvent.read 0x180).wellFormed = false := by decide
theorem test_write_last_cell_well_formed : (HostEvent.write 0x17F 0x00).wellFormed = true := by decide

/-! ## Decode: every word of R32's table, bit by bit -/

theorem test_decode_nop : decode 0b00000000 = .ok .nop := by decide
theorem test_decode_clr : decode 0b00000001 = .ok .clr := by decide
theorem test_decode_b32e : decode 0b00000010 = .ok .b32e := by decide
theorem test_decode_b32d : decode 0b00000011 = .ok .b32d := by decide
theorem test_decode_b32es : decode 0b00000100 = .ok .b32es := by decide
theorem test_decode_b32ds : decode 0b00000101 = .ok .b32ds := by decide
theorem test_decode_rg85 : decode 0b00000110 = .ok .rg85 := by decide
theorem test_decode_rg58 : decode 0b00000111 = .ok .rg58 := by decide
theorem test_decode_pminit : decode 0b00001000 = .ok .pminit := by decide
theorem test_decode_pmpush : decode 0b00001001 = .ok .pmpush := by decide
theorem test_decode_pmrun : decode 0b00001010 = .ok .pmrun := by decide
theorem test_decode_pmembed : decode 0b00001011 = .ok .pmembed := by decide
theorem test_decode_pmcheck : decode 0b00001100 = .ok .pmcheck := by decide
theorem test_decode_venc : decode 0b00001101 = .ok .venc := by decide
theorem test_decode_vdec : decode 0b00001110 = .ok .vdec := by decide
theorem test_decode_0F : decode 0b00001111 = .error .reservedOpcode := by decide
theorem test_decode_86 : decode 0b10000110 = .error .reservedBitSet := by decide
theorem test_decode_table_word : decodeTableWord 8 0x0B = some .pmembed := by decide
theorem test_fetch_word_runs : stepped (State.reset.withFetchWord 8 0x08) = after .pminit (State.reset.withCmd 0x08) := by
  rfl

/-! ## One step of each command; the results are the rows of `95_test_vectors.md` named in each comment -/

/-- Section 6.1, row 2. -/
theorem test_nop_clears_status :
    (after .nop { State.reset with ecode := some .checksumMismatch, c := 0 }).map (fun t => (t.ecode, t.c)) =
      some (none, 0) := by decide

/-- Section 6.1, row 3. -/
theorem test_clr_keeps_buffer :
    (after .clr { withBuffer [1, 2, 3] with c := 0x2294869B5C, res0 := 0x70 }).map
      (fun t => (t.c, t.slen, t.res0, t.sb.firstCells 3)) = some (1, 0, 0, [1, 2, 3]) := by decide +kernel

/-- Section 2.1: 15 gives the digit 0. -/
theorem test_b32e_15 : (after .b32e { State.reset with arg0 := 15 }).map (·.res0) = some 0x30 := by decide

/-- Section 2.1: 32 raises and keeps `RES0`. -/
theorem test_b32e_32 : (after .b32e { State.reset with arg0 := 32, res0 := 7 }).map (fun t => (t.res0, statusByte t.ecode)) =
    some (7, 0x87) := by decide

/-- Section 2.2: the upper-case L. -/
theorem test_b32d_L : (after .b32d { State.reset with arg0 := 0x4C }).map (·.res0) = some 31 := by decide

/-- Section 2.2: 0x19 is a digit code minus 0x20, and digits are not folded. -/
theorem test_b32d_19 : (after .b32d { State.reset with arg0 := 0x19 }).map (fun t => statusByte t.ecode) = some 0x81 := by
  decide

/-- Section 2.3: qpm2. -/
theorem test_b32es : (after .b32es (withBuffer [0, 1, 27, 10])).map (·.sb.firstCells 5) =
    some [0x71, 0x70, 0x6D, 0x32, 0xEE] := by decide +kernel

/-- Section 2.3: the lowest index above 31. -/
theorem test_b32es_value : (after .b32es (withBuffer [31, 31, 255])).map (fun t => (statusByte t.ecode, t.einfo, t.sbv)) =
    some (0x87, 2, [31, 31, 255]) := by decide +kernel

/-- Section 2.4: 9Q9. -/
theorem test_b32ds : (after .b32ds (withBuffer [0x39, 0x51, 0x39])).map (·.sbv) = some [5, 0, 5] := by decide +kernel

/-- Section 2.4: Qp! has an invalid character at 2 and is reported as mixed case at 1. -/
theorem test_b32ds_mixed : (after .b32ds (withBuffer [0x51, 0x70, 0x21])).map (fun t => (statusByte t.ecode, t.einfo)) =
    some (0x82, 1) := by decide +kernel

/-- Section 3.1: four bytes, three pad bits. -/
theorem test_rg85 : (after .rg85 (withBuffer [0xDE, 0xAD, 0xBE, 0xEF])).map (fun t => (t.slen, t.sbv)) =
    some (7, [27, 26, 22, 27, 29, 27, 24]) := by decide +kernel

/-- Section 3.1: 81 bytes would not fit. -/
theorem test_rg85_capacity : (after .rg85 { State.reset with slen := 81 }).map (fun t => (statusByte t.ecode, t.slen)) =
    some (0x88, 81) := by decide +kernel

/-- Section 3.2: the second group stays in its cell above the new `SLEN`. -/
theorem test_rg58 : (after .rg58 (withBuffer [31, 28])).map (fun t => (t.slen, t.sb.firstCells 2)) =
    some (1, [0xFF, 28]) := by decide +kernel

/-- Section 3.2: three zero groups leave seven bits. -/
theorem test_rg58_leftover : (after .rg58 (withBuffer [0, 0, 0])).map (fun t => (statusByte t.ecode, t.slen)) =
    some (0x83, 3) := by decide +kernel

/-- R68's example. -/
theorem test_pminit : (after .pminit { State.reset with c := 0xF669CD6D15 }).map (·.c) = some 1 := by decide

/-- Section 4.2, the ninth push. -/
theorem test_pmpush : (after .pmpush { State.reset with c := 0x98F2BC8E61, arg0 := 0 }).map (·.c) = some 0xE15D033FD3 := by
  decide +kernel

/-- R65 under another table of terms (R6): with only `c0[0]` set and the shifted part zero the result is the first
term. -/
theorem test_pmpush_other_table : (after .pmpush
    { State.reset with c := 0x0800000000, arg0 := 0, gen := ⟨0x123456789A, 0, 0, 0, 0⟩ }).map (·.c) =
      some 0x123456789A := by decide +kernel

/-- Section 4.3: the expanded prefix bitcoincash. -/
theorem test_pmrun : (after .pmrun (withBuffer [2, 9, 20, 3, 15, 9, 14, 3, 1, 19, 8, 0])).map (·.c) =
    some 0xF669CD6D15 := by decide +kernel

/-- Section 4.4: the cell 99 raises at index 2 and `C` is not advanced. -/
theorem test_pmrun_value : (after .pmrun { withBuffer [3, 4, 99, 5] with c := 0x22 }).map
    (fun t => (statusByte t.ecode, t.einfo, t.c)) = some (0x87, 2, 0x22) := by decide +kernel

/-- Section 4.5, row 1. -/
theorem test_pmembed : (after .pmembed (withBuffer [])).map (fun t => (t.slen, t.c, t.sbv)) =
    some (8, 0x98F2BC8E61, [19, 3, 25, 11, 25, 3, 19, 0]) := by decide +kernel

/-- Section 4.5: at 121 fewer than eight cells are free. -/
theorem test_pmembed_capacity : (after .pmembed { State.reset with slen := 121 }).map
    (fun t => (statusByte t.ecode, t.slen, t.c)) = some (0x88, 121, 1) := by decide +kernel

/-- Section 4.5: `C = 0`. -/
theorem test_pmcheck : (after .pmcheck { State.reset with c := 0 }).map (fun t => statusByte t.ecode) = some 0x84 := by
  decide

/-- Section 5.1: a P2SH hash of 32 bytes. -/
theorem test_venc : (after .venc { State.reset with arg0 := 1, arg1 := 32 }).map (·.res0) = some 0x0B := by decide

/-- Section 5.1: with both operands bad the length is reported. -/
theorem test_venc_both_bad : (after .venc { State.reset with arg0 := 2, arg1 := 19 }).map (fun t => statusByte t.ecode) =
    some 0x85 := by decide

/-- Section 5.2: 0x17. -/
theorem test_vdec : (after .vdec { State.reset with arg0 := 0x17 }).map (fun t => (t.res0, t.res1)) = some (2, 64) := by
  decide

/-- Section 1.1: the payload groups and checksum of D0's P2KH address, after its prefix, leave `C = 1`. -/
theorem test_literal_address_verifies : polymod pmGen 0xF669CD6D15
    [0, 1, 27, 10, 0, 16, 2, 19, 23, 22, 16, 10, 17, 2, 30, 26, 10, 5, 27, 27, 16, 26, 16, 21, 24, 14, 25, 9, 30, 21, 12,
      24, 14, 12, 4, 10, 10, 8, 13, 6, 26, 29] = 1 := by decide +kernel

/-- Section 6.1: 0x86 has the opcode bits of RG85 and does not regroup. -/
theorem test_illegal_word : (stepped { withBuffer [0xFF] with pending := [.write 0x000 0x86] }).map
    (fun t => (t.cmd, statusByte t.ecode, t.sbv)) = some (0x86, 0x89, [0xFF]) := by decide +kernel

/-- R45 and R30: `wrsb` of the last cell, and of the first indices that name none. -/
theorem test_wrsb : wrsb 127 0xAA = some (.write 0x17F 0xAA) ∧ wrsb 128 0xAA = none ∧ wrsb 256 0xAA = none := by decide

/-- R42's example: the expanded prefix of bitcoincash. -/
theorem test_expand_prefix : expandPrefix [0x62, 0x69, 0x74, 0x63, 0x6F, 0x69, 0x6E, 0x63, 0x61, 0x73, 0x68] =
    [2, 9, 20, 3, 15, 9, 14, 3, 1, 19, 8, 0] := by decide

/-- Section 6.3: the split is at the last colon, a:b:q. -/
theorem test_split_last_colon : splitAtLastColon [0x61, 0x3A, 0x62, 0x3A, 0x71] = some ([0x61, 0x3A, 0x62], [0x71]) := by
  decide

/-- R55's loop on R56's example. -/
theorem test_regroup_loop : regroupLoop [0x00, 0x76, 0xA0, 0x40, 0x53] 8 5 true = some [0, 1, 27, 10, 0, 16, 2, 19] := by
  decide

end Sys2Proof.Tests
end

