-- ==== Sys2Proof/Tests/Witnesses.lean ====
section
/-! SUPPORT. For every statement with hypotheses, a concrete state and operands that meet them, clause by clause, at a
boundary value of the clause's range. -/

open Sys2Proof Sys2Proof.Machine

namespace Sys2Proof.Tests

/-- The reset state with the given transactions issued. -/
def issued (es : List HostEvent) : State := { State.reset with pending := es }

/-- The body of D0's P2KH address without its last character: qpm2qsznhks23z7629mms6s4cwef74vcwvy22gdx6. -/
def d0BodyInit : List Byte :=
  [0x71, 0x70, 0x6D, 0x32, 0x71, 0x73, 0x7A, 0x6E, 0x68, 0x6B, 0x73, 0x32, 0x33, 0x7A, 0x37, 0x36, 0x32, 0x39, 0x6D,
    0x6D, 0x73, 0x36, 0x73, 0x34, 0x63, 0x77, 0x65, 0x66, 0x37, 0x34, 0x76, 0x63, 0x77, 0x76, 0x79, 0x32, 0x32, 0x67,
    0x64, 0x78, 0x36]

/-- The result of a run, where it reports one. -/
def okOf {α : Type} : Option (Except SeqError α) → Option α
  | some (.ok a) => some a
  | some (.error _) => none
  | none => none

theorem eq_ok_of_okOf {α : Type} {r : Option (Except SeqError α)} {a : α} (h : okOf r = some a) :
    r = some (.ok a) := by
  match r, h with
  | some (.ok _), h => simpa [okOf] using h

theorem withBuffer_wf (cells : List Byte) : (withBuffer cells).sb.wf = true := by
  simp [withBuffer, Memory.wf_iff, Function.comp_def]

theorem reset_wf : State.reset.sb.wf = true := Memory.afterReset_wf 0

/-- The states of the tests have the default table of terms. -/
theorem withBuffer_gen (cells : List Byte) : (withBuffer cells).gen = pmGen := rfl

theorem withBuffer_sbvIs (cells : List Byte) (h : cells.length ≤ Config.sbDepth) : (withBuffer cells).sbvIs cells := by
  have hl : (withBuffer cells).slen.toNat = cells.length := by
    have hd : Config.sbDepth < 256 := by decide
    simp only [withBuffer, BitVec.toNat_ofNat]
    omega
  refine ⟨hl.symm, fun j hj => ?_⟩
  have hf : (List.range Config.sbDepth).find? (fun k => k == j) = some j := by
    rw [List.find?_range_eq_some]
    refine ⟨by simp, List.mem_range.2 (by omega), fun k hk => by simp; omega⟩
  have hg : (withBuffer cells).sb.read j = some (cells.getD j 0xEE) := by
    simp only [withBuffer, Memory.read, List.find?_map, Function.comp_def, hf, Option.map_some]
  rw [hg, List.getD_eq_getElem?_getD]
  simp [List.getElem?_eq_getElem hj]

theorem witness_CommandWordsDecodeAndEncode :
    Instr.wellFormed .vdec = true ∧ decode 0x00 = .ok .nop ∧ decode 0x0E = .ok .vdec := by decide

theorem witness_DecoderRejectsExactlyIllegalWords :
    (0x0F : Byte).extractLsb' 0 4 = 0xF ∧ (0x10 : Byte).extractLsb' 4 4 ≠ 0 ∧
      ((0x0E : Byte).extractLsb' 4 4 = 0 ∧ (0x0E : Byte).extractLsb' 0 4 ≠ 0xF) := by decide

theorem witness_CmdWriteRunsTheDecodedCommand :
    (issued [.write 0x000 0x0E]).pending = .write 0x000 0x0E :: [] ∧ decode 0x0E = .ok .vdec := by decide

theorem witness_IllegalWordRaisesIllegalCommand :
    (issued [.write 0x000 0x0F]).pending = .write 0x000 0x0F :: [] ∧ (0x0F : Byte).extractLsb' 0 4 = 0xF ∧
      (issued [.write 0x000 0x10]).pending = .write 0x000 0x10 :: [] ∧ (0x10 : Byte).extractLsb' 4 4 ≠ 0 := by decide

theorem witness_HostWriteSetsTheRegisterAtTheOffset :
    (issued [.write 0x17F 0xAA]).pending = .write 0x17F 0xAA :: [] ∧ (issued [.write 0x17F 0xAA]).sb.wf = true ∧
      (0x17F : Offset).toNat = 0x100 + 127 ∧ (0x100 : Offset).toNat = 0x100 + 0 ∧
      (0x006 ≤ (0x006 : Offset).toNat ∧ (0x0FF : Offset).toNat < 0x100) ∧
      0x100 + Config.sbDepth ≤ (0x180 : Offset).toNat :=
  ⟨rfl, reset_wf, rfl, rfl, by decide, by decide⟩

theorem witness_HostReadReturnsTheRegisterAtTheOffset :
    (issued [.read 0x17F]).pending = .read 0x17F :: [] ∧ (0x008 : Offset).toNat = 0x008 + 0 ∧
      (0x00C : Offset).toNat = 0x008 + 4 ∧ ((0x17F : Offset).toNat = 0x100 + 127 ∧ (withBuffer []).sb.read 127 = some 0xEE) ∧
      (0x00D ≤ (0x00D : Offset).toNat ∧ (0x0FF : Offset).toNat < 0x100) ∧
      0x100 + Config.sbDepth ≤ (0x180 : Offset).toNat := by decide +kernel

theorem witness_TransactionsTakeEffectInProgramOrder :
    (∃ t, (issued [.read 0x000, .reset]).pending = .read 0x000 :: [.reset] ∧ step (issued [.read 0x000, .reset]) = .next t) ∧
      (∃ t, (issued [.write 0x000 0x01]).pending = .write 0x000 0x01 :: [] ∧ step (issued [.write 0x000 0x01]) = .next t) ∧
      ∃ t, (issued [.reset, .read 0x000]).pending = .reset :: [.read 0x000] ∧ step (issued [.reset, .read 0x000]) = .next t :=
  ⟨⟨_, rfl, rfl⟩, ⟨_, rfl, rfl⟩, ⟨_, rfl, rfl⟩⟩

theorem witness_HostReadReturnsTheLatestWrite :
    (issued [.write 0x17F 0x55, .read 0x17F]).sb.wf = true ∧ (HostReg.ofOffset 0x17F).writable = true ∧
      (HostReg.ofOffset 0x000).writable = true ∧
      (issued [.write 0x17F 0x55, .read 0x17F]).pending = .write 0x17F 0x55 :: .read 0x17F :: [] :=
  ⟨reset_wf, by decide, by decide, rfl⟩

theorem witness_BlockIdlesWithoutTransaction : State.reset.pending = [] := rfl

theorem witness_ResetEventGivesTheResetState : (issued [.reset]).pending = .reset :: [] := rfl

theorem witness_B32eEncodesOneValue :
    ({ State.reset with arg0 := 31 } : State).arg0.toNat ≤ 31 ∧ 31 < ({ State.reset with arg0 := 32 } : State).arg0.toNat := by
  decide

theorem witness_B32dDecodesOneCharacter :
    charToValue ({ State.reset with arg0 := 0x5A } : State).arg0 = some 2 ∧
      charToValue ({ State.reset with arg0 := 0x5B } : State).arg0 = none := by decide

theorem witness_B32esEncodesTheBuffer :
    Config.sbDepth < ({ State.reset with slen := 129 } : State).slen.toNat ∧
      ((withBuffer [31, 32]).sb.wf = true ∧ (withBuffer [31, 32]).sbvIs [31, 32] ∧
        ([31, 32] : List Byte)[1]? = some 32 ∧ 31 < (32 : Byte).toNat ∧ ∀ u ∈ ([31, 32] : List Byte).take 1, u.toNat ≤ 31) ∧
      ((withBuffer (groupCells (List.replicate 128 31))).sb.wf = true ∧
        (withBuffer (groupCells (List.replicate 128 31))).sbvIs (groupCells (List.replicate 128 31))) :=
  ⟨by decide, ⟨withBuffer_wf _, withBuffer_sbvIs _ (by decide +kernel), by decide, by decide, by decide⟩,
    withBuffer_wf _, withBuffer_sbvIs _ (by decide +kernel)⟩

theorem witness_B32dsDecodesTheBuffer :
    Config.sbDepth < ({ State.reset with slen := 129 } : State).slen.toNat ∧
      ((withBuffer [0x39, 0x51, 0x71]).sb.wf = true ∧ (withBuffer [0x39, 0x51, 0x71]).sbvIs [0x39, 0x51, 0x71] ∧
        ([0x39, 0x51, 0x71] : List Byte)[2]? = some 0x71 ∧ caseOf 0x71 = some .lower ∧ LetterCase.lower ≠ .upper ∧
        (∃ u ∈ ([0x39, 0x51, 0x71] : List Byte).take 2, caseOf u = some .upper) ∧
        ∀ u ∈ ([0x39, 0x51, 0x71] : List Byte).take 2, caseOf u ≠ some .lower) ∧
      ((withBuffer [0x71, 0x7B]).sb.wf = true ∧ (withBuffer [0x71, 0x7B]).sbvIs [0x71, 0x7B] ∧
        (∀ u ∈ ([0x71, 0x7B] : List Byte), caseOf u = none ∨ caseOf u = some .lower) ∧
        ([0x71, 0x7B] : List Byte)[1]? = some 0x7B ∧ charToValue 0x7B = none ∧
        ∀ u ∈ ([0x71, 0x7B] : List Byte).take 1, charToValue u ≠ none) ∧
      ((withBuffer [0x5A, 0x30]).sb.wf = true ∧ (withBuffer [0x5A, 0x30]).sbvIs [0x5A, 0x30] ∧
        (∀ u ∈ ([0x5A, 0x30] : List Byte), caseOf u = none ∨ caseOf u = some .upper) ∧
        ([0x5A, 0x30] : List Byte).map charToValue = ([2, 15] : List Group).map some) :=
  ⟨by decide, ⟨withBuffer_wf _, withBuffer_sbvIs _ (by decide +kernel), by decide, by decide, by decide, by decide, by decide⟩,
    ⟨withBuffer_wf _, withBuffer_sbvIs _ (by decide +kernel), by decide, by decide, by decide, by decide⟩,
    withBuffer_wf _, withBuffer_sbvIs _ (by decide +kernel), by decide, by decide⟩

theorem witness_Base32BufferRoundTrip :
    ((withBuffer (groupCells [0, 31])).sb.wf = true ∧ (withBuffer (groupCells [0, 31])).sbvIs (groupCells [0, 31])) ∧
      ((withBuffer [0x71, 0x6C]).sb.wf = true ∧ (withBuffer [0x51, 0x4C]).sb.wf = true ∧
        (withBuffer [0x71, 0x6C]).sbvIs [0x71, 0x6C] ∧
        (withBuffer [0x51, 0x4C]).sbvIs
          (([0x71, 0x6C] : List Byte).map fun ch => if 0x61 ≤ ch.toNat ∧ ch.toNat ≤ 0x7A then ch - 0x20 else ch) ∧
        (after .b32ds (withBuffer [0x71, 0x6C])).map (·.ecode) = some none) :=
  ⟨⟨withBuffer_wf _, withBuffer_sbvIs _ (by decide +kernel)⟩, withBuffer_wf _, withBuffer_wf _, withBuffer_sbvIs _ (by decide +kernel),
    withBuffer_sbvIs [0x51, 0x4C] (by decide), by decide +kernel⟩

theorem witness_RegroupLoopComputesTheStream : 0 < 1 ∧ 0 < 8 ∧ ∀ x ∈ [255, 0], x < 2 ^ 8 := by decide

theorem witness_RegroupLengths :
    regroup (([0xFF] : List Byte).map BitVec.toNat) 8 5 true = some [31, 28] ∧
      regroup (([31, 28] : List Group).map BitVec.toNat) 5 8 false = some [255] := by decide

theorem witness_LongLeftoverIsInvalidPadding :
    5 ≤ 5 * ([0] : List Group).length % 8 ∧
      regroup (([0, 4] : List Group).map BitVec.toNat) 5 8 false = some [1] := by decide

theorem witness_Rg85RegroupsBytes :
    Config.sbDepth < (8 * ({ State.reset with slen := 81 } : State).slen.toNat + 4) / 5 ∧
      (withBuffer (List.replicate 80 0xFF)).sb.wf = true ∧
      (withBuffer (List.replicate 80 0xFF)).sbvIs (List.replicate 80 0xFF) ∧
      (8 * (List.replicate 80 (0xFF : Byte)).length + 4) / 5 ≤ Config.sbDepth :=
  ⟨by decide, withBuffer_wf _, withBuffer_sbvIs _ (by decide +kernel), by decide⟩

theorem witness_Rg58RegroupsGroups :
    Config.sbDepth < ({ State.reset with slen := 129 } : State).slen.toNat ∧
      ((withBuffer [31, 32]).sb.wf = true ∧ (withBuffer [31, 32]).sbvIs [31, 32] ∧
        ([31, 32] : List Byte)[1]? = some 32 ∧ 31 < (32 : Byte).toNat ∧ ∀ u ∈ ([31, 32] : List Byte).take 1, u.toNat ≤ 31) ∧
      ((withBuffer (groupCells [31, 29])).sb.wf = true ∧ (withBuffer (groupCells [31, 29])).sbvIs (groupCells [31, 29]) ∧
        regroup (([31, 29] : List Group).map BitVec.toNat) 5 8 false = none) ∧
      ((withBuffer (groupCells [31, 28])).sb.wf = true ∧ (withBuffer (groupCells [31, 28])).sbvIs (groupCells [31, 28]) ∧
        regroup (([31, 28] : List Group).map BitVec.toNat) 5 8 false = some [255]) :=
  ⟨by decide, ⟨withBuffer_wf _, withBuffer_sbvIs _ (by decide +kernel), by decide, by decide, by decide⟩,
    ⟨withBuffer_wf _, withBuffer_sbvIs _ (by decide +kernel), by decide⟩, withBuffer_wf _, withBuffer_sbvIs _ (by decide +kernel), by decide⟩

theorem witness_RegroupBufferRoundTrip :
    ((withBuffer (List.replicate 80 0xFF)).sb.wf = true ∧
        (withBuffer (List.replicate 80 0xFF)).sbvIs (List.replicate 80 0xFF) ∧
        (8 * (List.replicate 80 (0xFF : Byte)).length + 4) / 5 ≤ Config.sbDepth) ∧
      ((withBuffer (groupCells [31, 28])).sb.wf = true ∧ (withBuffer (groupCells [31, 28])).sbvIs (groupCells [31, 28]) ∧
        (after .rg58 (withBuffer (groupCells [31, 28]))).map (·.ecode) = some none) :=
  ⟨⟨withBuffer_wf _, withBuffer_sbvIs _ (by decide +kernel), by decide⟩, withBuffer_wf _, withBuffer_sbvIs _ (by decide +kernel),
    by decide +kernel⟩

theorem witness_PmpushAbsorbsOneSymbol :
    ({ State.reset with arg0 := 31 } : State).arg0.toNat ≤ 31 ∧ 31 < ({ State.reset with arg0 := 32 } : State).arg0.toNat := by
  decide

theorem witness_PmrunAbsorbsTheBuffer :
    Config.sbDepth < ({ State.reset with slen := 129 } : State).slen.toNat ∧
      ((withBuffer [31, 32]).sb.wf = true ∧ (withBuffer [31, 32]).sbvIs [31, 32] ∧
        ([31, 32] : List Byte)[1]? = some 32 ∧ 31 < (32 : Byte).toNat ∧ ∀ u ∈ ([31, 32] : List Byte).take 1, u.toNat ≤ 31) ∧
      ((withBuffer (groupCells (List.replicate 128 31))).sb.wf = true ∧
        (withBuffer (groupCells (List.replicate 128 31))).sbvIs (groupCells (List.replicate 128 31))) :=
  witness_B32esEncodesTheBuffer

theorem witness_PmembedAppendsTheChecksum :
    Config.sbDepth < ({ State.reset with slen := 121 } : State).slen.toNat + 8 ∧
      ({ State.reset with slen := 120 } : State).sb.wf = true ∧
      ({ State.reset with slen := 120 } : State).slen.toNat + 8 ≤ Config.sbDepth :=
  ⟨by decide, reset_wf, by decide⟩

theorem witness_PmcheckTestsTheResidue : State.reset.c = 1 ∧ ({ State.reset with c := 0 } : State).c ≠ 1 := by decide

theorem witness_EmbeddedBufferPassesTheCheck :
    (withBuffer (groupCells (List.replicate 120 31))).sb.wf = true ∧
      (withBuffer (groupCells (List.replicate 120 31))).sbvIs (groupCells (List.replicate 120 31)) ∧
      (List.replicate 120 (31 : Group)).length + 8 ≤ Config.sbDepth :=
  ⟨withBuffer_wf _, withBuffer_sbvIs _ (by decide +kernel), by decide⟩

theorem witness_OneChangedSymbolChangesTheChecksum : (0 : Group) ≠ 31 ∧ (1 : Acc) ≠ 0 := by decide

theorem witness_VencBuildsTheVersionByte :
    ([20, 24, 28, 32, 40, 48, 56, 64][7]? = some ({ State.reset with arg1 := 64, arg0 := 1 } : State).arg1.toNat ∧
        ({ State.reset with arg1 := 64, arg0 := 1 } : State).arg0.toNat ≤ 1) ∧
      ({ State.reset with arg1 := 19 } : State).arg1.toNat ∉ [20, 24, 28, 32, 40, 48, 56, 64] ∧
      (({ State.reset with arg1 := 20, arg0 := 2 } : State).arg1.toNat ∈ [20, 24, 28, 32, 40, 48, 56, 64] ∧
        1 < ({ State.reset with arg1 := 20, arg0 := 2 } : State).arg0.toNat) := by decide

theorem witness_VersionByteRoundTrip :
    versionEncode 1 64 = .ok 0x0F ∧ (1 : Byte).toNat ≤ 1 ∧ (64 : Byte).toNat ∈ [20, 24, 28, 32, 40, 48, 56, 64] ∧
      (0x0F : Byte).extractLsb' 4 4 = 0 ∧ (0x10 : Byte).extractLsb' 4 4 ≠ 0 := by decide

theorem witness_FailedCommandChangesOnlyTheStatus :
    (∃ t, (issued [.write 0x000 0x0D]).pending = .write 0x000 0x0D :: [] ∧ step (issued [.write 0x000 0x0D]) = .next t ∧
        t.ecode = some .unsupportedLength) ∧
      ∃ t, (issued [.write 0x000 0x0F]).pending = .write 0x000 0x0F :: [] ∧ step (issued [.write 0x000 0x0F]) = .next t ∧
        t.ecode = some .illegalCommand :=
  ⟨⟨_, rfl, rfl, rfl⟩, ⟨_, rfl, rfl, rfl⟩⟩

theorem witness_SuccessfulCommandClearsTheStatus :
    ∃ t, (issued [.write 0x000 0x0C]).pending = .write 0x000 0x0C :: [] ∧ step (issued [.write 0x000 0x0C]) = .next t ∧
      t.ecode = none :=
  ⟨_, rfl, rfl, rfl⟩

theorem witness_CommandsRaiseExactlyTheirKinds :
    (∃ t, exec .b32e { State.reset with arg0 := 32 } = .next t ∧ t.ecode = some .invalidValue) ∧
      ErrorKind.invalidPadding ∈ kindsOf .rg58 :=
  ⟨⟨_, rfl, rfl⟩, by decide⟩

theorem witness_EinfoIsTheIndexOfAValidCell :
    (after .pmrun (withBuffer [0, 32])).map (fun t => decide (t.einfo ≠ 0)) = some true := by decide +kernel

theorem witness_NoCommandReadsTheStatus :
    ∃ t, exec .pmpush { State.reset with arg0 := 255 } = .next t ∧ t.ecode ≠ none :=
  ⟨_, rfl, by simp [State.withStatus]⟩

theorem witness_EachRegisterHasItsWriters : ∃ t, exec .pmembed State.reset = .next t := ⟨_, rfl⟩

theorem witness_StaleCellsAreNeverAnInput :
    (withBuffer [1]).sb.wf = true ∧ ((withBuffer [1]).sb.write 127 0).wf = true ∧
      ∀ j < (withBuffer [1]).slen.toNat, ((withBuffer [1]).sb.write 127 0).read j = (withBuffer [1]).sb.read j :=
  ⟨withBuffer_wf _, by simpa using withBuffer_wf [1], by decide +kernel⟩

theorem witness_CommandsThatKeepTheirInputsAreIdempotent :
    Instr.venc ∈ [Instr.nop, .clr, .pminit, .pmcheck, .b32e, .b32d, .venc, .vdec] ∧
      ∃ t, exec .venc State.reset = .next t :=
  ⟨by decide, _, rfl⟩

theorem reset_inv : State.reset.toBlock.Inv :=
  ⟨Memory.afterReset_wf 0, rfl, fun h => absurd rfl h, by decide, .inl rfl⟩

theorem witness_EveryStepKeepsTheInvariant : State.reset.toBlock.Inv ∧ step State.reset = .next State.reset :=
  ⟨reset_inv, rfl⟩

theorem witness_DecodeOfEncodeIsTheInput :
    (State.reset.sb.wf = true ∧ State.reset.gen = (withBuffer []).gen ∧ State.reset.gen = pmGen ∧ ValidPrefix literalPrefix ∧
      (1 : Byte).toNat ≤ 1 ∧ literalHash.length ∈ [20, 24, 28, 32, 40, 48, 56, 64]) ∧
      ∃ str, (1, str) ∈ literalAddresses :=
  ⟨⟨reset_wf, rfl, rfl, by unfold ValidPrefix; decide +kernel, by decide, by decide⟩, _, .tail _ (.head _)⟩

/-- R89 item 5, section 1.1: the P2SH address, encoded. -/
theorem test_encode_literal_p2sh : runResult (encodeAddress (withBuffer []) literalPrefix 1 literalHash) =
    some (.ok (asciiCodes "bitcoincash:ppm2qsznhks23z7629mms6s4cwef74vcwvn0h829pq")) :=
  eq_ok_of_okOf (by decide +kernel)

/-- R89 item 5, section 1.1: the P2SH address, decoded. -/
theorem test_decode_literal_p2sh :
    runResult (decodeAddress (withBuffer []) none (asciiCodes "bitcoincash:ppm2qsznhks23z7629mms6s4cwef74vcwvn0h829pq")) =
      some (.ok ⟨literalPrefix, 1, literalHash⟩) :=
  eq_ok_of_okOf (by decide +kernel)

/-- Section 6.3, row 1: D0's P2KH address decodes; and a body that mixes cases, at the longest that fits. -/
theorem witness_UpperCaseAddressDecodesAlike :
    ((withBuffer []).sb.wf = true ∧
      runResult (decodeAddress (withBuffer []) none (literalPrefix ++ 0x3A :: (d0BodyInit ++ 0x61 :: []))) =
        some (.ok ⟨literalPrefix, 0, literalHash⟩)) ∧
      ((0x3A : Byte) ∉ (0x5A : Byte) :: List.replicate 127 0x61 ∧
        (0x5A :: List.replicate 127 0x61 : List Byte).length = Config.sbDepth ∧
        MixesCases (0x5A :: List.replicate 127 0x61)) :=
  ⟨⟨withBuffer_wf _, eq_ok_of_okOf (by decide +kernel)⟩, by unfold MixesCases; decide +kernel⟩

/-- R89 item 2: a body that mixes cases fails in `decode`. -/
theorem test_decode_mixed_body :
    (match runResult (decodeAddress (withBuffer []) none (asciiCodes "a:qP")) with
      | some (.error e) => some e
      | _ => none) = some (.kind .mixedCaseError) := by decide +kernel

theorem witness_SubstitutedCharacterFailsTheChecksum :
    (withBuffer []).gen = pmGen ∧ runResult (decodeAddress (withBuffer []) none (literalPrefix ++ 0x3A :: (d0BodyInit ++ 0x61 :: []))) =
        some (.ok ⟨literalPrefix, 0, literalHash⟩) ∧ (0x3A : Byte) ∉ d0BodyInit ++ 0x61 :: [] ∧
      OneSubstituted (d0BodyInit ++ 0x61 :: []) (d0BodyInit ++ 0x71 :: []) :=
  ⟨withBuffer_gen _, witness_UpperCaseAddressDecodesAlike.1.2, by decide +kernel,
    d0BodyInit, [], 0x61, 0x71, 0, rfl, rfl, by decide, by decide, by unfold MixesCases; decide +kernel⟩

/-- Section 1.1, the P2KH address, and section 4.3, the prefix "a" in place of bitcoincash. -/
theorem witness_OtherPrefixFailsTheChecksum :
    (withBuffer []).sb.wf = true ∧ (withBuffer []).gen = pmGen ∧
      runResult (encodeAddress (withBuffer []) literalPrefix 0 literalHash) =
        some (.ok (literalPrefix ++ 0x3A :: (d0BodyInit ++ [0x61]))) ∧
      polymod pmGen 1 (expandPrefix (([0x61] : List Byte).map toLower)) ≠ polymod pmGen 1 (expandPrefix literalPrefix) :=
  ⟨withBuffer_wf _, withBuffer_gen _, eq_ok_of_okOf (by decide +kernel), by decide +kernel⟩

theorem witness_RunsDependOnlyOnTheirInputs : State.reset.sb.wf = true ∧ (withBuffer [1, 2, 3]).sb.wf = true ∧
    State.reset.gen = (withBuffer [1, 2, 3]).gen :=
  ⟨reset_wf, withBuffer_wf _, rfl⟩

theorem witness_EncodeReportsLengthThenType :
    (List.replicate 19 (0 : Byte)).length ∉ [20, 24, 28, 32, 40, 48, 56, 64] ∧
      (literalHash.length ∈ [20, 24, 28, 32, 40, 48, 56, 64] ∧ 1 < (2 : Byte).toNat) := by decide

theorem witness_MissingColonUsesTheDefaultPrefix :
    State.reset.sb.wf = true ∧ (0x3A : Byte) ∉ List.replicate 128 0x71 ∧
      (List.replicate 128 (0x71 : Byte)).length ≤ Config.sbDepth ∧
      (∀ u ∈ List.replicate 128 (0x71 : Byte), charToValue u ≠ none) ∧
      ¬ MixesCases (List.replicate 128 0x71) :=
  ⟨reset_wf, by decide +kernel, by decide +kernel, by decide +kernel, by unfold MixesCases; decide +kernel⟩

end Sys2Proof.Tests
end

section
/-! The scope statements (00_scope.md): what the block does when the host has issued nothing. -/

namespace Sys2Proof.Machine

/-- Settles O11: the case of no transaction in what a step can do, `step_idle` (R3). -/
theorem blockIdlesWithoutTransaction : Obligations.BlockIdlesWithoutTransaction := by
  unfold Obligations.BlockIdlesWithoutTransaction
  intro s hidle
  exact step_idle hidle

end Sys2Proof.Machine
end

section
/-! SUPPORT. What a command answers, said once for all fifteen: it raises one of its kinds, or it writes its own
registers and one run of cells; and it answers the same in every state that differs only in what no command reads: the
status (R9) and the cells at or above `SLEN` (R15). -/

namespace Sys2Proof.Machine

/-- `s'` is `s` but for what no command reads: the status, and the buffer outside its valid part. -/
inductive State.Alike (s : State) : State → Prop where
  | mk (e : Option ErrorKind) (x : Byte) (m : Memory) (same : m.firstCells s.slen.toNat = s.sbv) :
    s.Alike { s with ecode := e, einfo := x, sb := m }

/-- A state is alike to itself. -/
theorem State.alike_refl (s : State) : s.Alike s := ⟨s.ecode, s.einfo, s.sb, rfl⟩

/-- Alike states have the same `SLEN`. -/
theorem State.Alike.slen_eq {s s' : State} (h : s.Alike s') : s'.slen = s.slen := by
  obtain ⟨e, x, m, _⟩ := h; rfl

/-- Alike states have the same valid part of the buffer. -/
theorem State.Alike.sbv_eq {s s' : State} (h : s.Alike s') : s'.sbv = s.sbv := by
  obtain ⟨e, x, m, same⟩ := h; exact same

/-- Alike states have the same buffer operand. -/
theorem State.Alike.bufferOperand_eq {s s' : State} (h : s.Alike s') : bufferOperand s' = bufferOperand s := by
  simp only [bufferOperand, h.slen_eq, h.sbv_eq]

/-- Alike states have the same groups operand. -/
theorem State.Alike.groupsOperand_eq {s s' : State} (h : s.Alike s') : groupsOperand s' = groupsOperand s := by
  simp only [groupsOperand, h.bufferOperand_eq]

/-- What a command that does not raise leaves in the registers a command may write, and the run of cells it writes. -/
structure Writes where
  slen : Byte
  arg0 : Byte
  arg1 : Byte
  res0 : Byte
  res1 : Byte
  c : Acc
  base : Nat
  cells : List Byte

/-- The writes that change nothing in `s`. -/
def Writes.keep (s : State) : Writes where
  slen := s.slen
  arg0 := s.arg0
  arg1 := s.arg1
  res0 := s.res0
  res1 := s.res1
  c := s.c
  base := 0
  cells := []

/-- The state with the writes done. -/
def Writes.apply (w : Writes) (s : State) : State :=
  { s.withCells w.base w.cells with
    slen := w.slen, arg0 := w.arg0, arg1 := w.arg1, res0 := w.res0, res1 := w.res1, c := w.c }

/-- The writes command `i` may make in state `s`. Each field is what a command that leaves the part alone meets, so a
command names the parts it writes. -/
structure Writes.Fits (w : Writes) (i : Instr) (s : State) : Prop where
  slen : w.slen = s.slen ∨ i ∈ [.rg85, .rg58, .pmembed, .clr] := by exact .inl rfl
  args : (w.arg0 = s.arg0 ∧ w.arg1 = s.arg1) ∨ i = .clr := by exact .inl ⟨rfl, rfl⟩
  res0 : w.res0 = s.res0 ∨ i ∈ [.b32e, .b32d, .venc, .vdec, .clr] := by exact .inl rfl
  res1 : w.res1 = s.res1 ∨ (w.res1 = 0 ∨ w.res1 ∈ sizeTable) ∧ i ∈ [.vdec, .clr] := by exact .inl rfl
  c : w.c = s.c ∨ i ∈ [.pminit, .pmpush, .pmrun, .pmembed, .clr] := by exact .inl rfl
  cells : w.cells = [] ∨ i ∈ [.b32es, .b32ds, .rg85, .rg58, .pmembed] := by exact .inl rfl
  /-- A cell that is valid afterwards was valid before or has been written. -/
  valid : s.sb.wf = true → ∀ j < w.slen.toNat, j < s.slen.toNat ∨ w.base ≤ j ∧ j < w.base + w.cells.length := by
    exact fun _ _ hj => .inl hj

/-- The error command `i` may raise in state `s` (R92), with the index of a valid cell or 0 (R93). -/
structure Raise.Fits (r : Raise) (i : Instr) (s : State) : Prop where
  kind : r.kind ∈ kindsOf i
  info : r.info = 0 ∨ r.kind ∈ indexedKinds ∧ r.info.toNat < s.slen.toNat ∧ s.slen.toNat ≤ Config.sbDepth :=
    by exact .inl rfl

/-- What command `i` answers in `s` and in every state alike to it. -/
inductive Answer (i : Instr) (s : State) : Prop where
  | raises (r : Raise) (fits : r.Fits i s) (runs : ∀ s', s.Alike s' → exec i s' = raise r s')
  | writes (w : Writes) (fits : w.Fits i s) (runs : ∀ s', s.Alike s' → exec i s' = succeed (w.apply s'))

/-! What the operand checks can raise. -/

/-- The valid part of the buffer has at most `SLEN` cells. -/
theorem State.sbv_length_le (s : State) : s.sbv.length ≤ s.slen.toNat := Memory.firstCells_length_le _ _

/-- In a buffer of the right form the valid part has as many cells as `SLEN` says. -/
theorem State.sbv_length {s : State} (hw : s.sb.wf = true) (hs : s.slen.toNat ≤ Config.sbDepth) :
    s.sbv.length = s.slen.toNat := by
  have hread : ∀ j ∈ List.range s.slen.toNat, s.sb.read j = some ((s.sb.read j).getD 0) := fun j hj => by
    have hj' : j < Config.sbDepth := by have := List.mem_range.1 hj; omega
    obtain ⟨b, hb⟩ := Option.isSome_iff_exists.1 ((Memory.read_isSome_of_wf hw j).2 hj')
    rw [hb]; rfl
  rw [State.sbv, Memory.firstCells, List.filterMap_congr hread]
  simp

/-- An index into the valid part is recorded as the index of a valid cell (R93). -/
theorem indexInfo_lt_slen {s : State} {k : Nat} (hk : k < s.sbv.length) : (indexInfo k).toNat < s.slen.toNat := by
  have hle : (indexInfo k).toNat ≤ k := by simpa [indexInfo] using Nat.mod_le k 256
  have := s.sbv_length_le
  omega

/-- The check of the valid cells raises its kind at the index of one of them. -/
theorem checkCells_raises {s : State} {kind : ErrorKind} {bad : Byte → Bool} {r : Raise}
    (h : checkCells kind bad s.sbv = .error r) : r.kind = kind ∧ r.info.toNat < s.slen.toNat := by
  rcases checkCells_cases kind bad s.sbv with ⟨_, hok⟩ | ⟨k, hk, _, _, herr⟩
  · simp [hok] at h
  · obtain rfl : _ = r := by simpa [herr] using h
    exact ⟨rfl, indexInfo_lt_slen hk⟩

/-- The index of a mixed case is one of the list. -/
theorem mixedCaseIndex_lt {xs : List Byte} {k : Nat} (h : mixedCaseIndex xs = some k) : k < xs.length := by
  cases hf : xs.findSome? caseOf with
  | none => simp [mixedCaseIndex, hf] at h
  | some first =>
    simp only [mixedCaseIndex, hf] at h
    exact (List.findIdx?_eq_some_iff_getElem.1 h).1

/-- The case check of the valid cells raises `MixedCaseError` at the index of one of them (R53). -/
theorem checkCase_raises {s : State} {r : Raise} (h : checkCase s.sbv = .error r) :
    r.kind = .mixedCaseError ∧ r.info.toNat < s.slen.toNat := by
  cases hm : mixedCaseIndex s.sbv with
  | none => simp [checkCase, hm] at h
  | some k =>
    obtain rfl : _ = r := by simpa [checkCase, hm] using h
    exact ⟨rfl, indexInfo_lt_slen (mixedCaseIndex_lt hm)⟩

/-- The groups operand raises what B32ES, RG58 and PMRUN may raise (R92). -/
theorem groupsOperand_raises {i : Instr} {s : State} {r : Raise} (h : groupsOperand s = .error r)
    (hi : i ∈ [.b32es, .rg58, .pmrun]) : r.Fits i s := by
  have hkinds : .capacityExceeded ∈ kindsOf i ∧ .invalidValue ∈ kindsOf i := by
    revert i; decide
  rcases groupsOperand_cases s with ⟨_, _, hok⟩ | ⟨_, herr⟩ | ⟨hs, k, hk, _, _, herr⟩
  · simp [hok] at h
  · obtain rfl : _ = r := by simpa [herr] using h
    exact { kind := hkinds.1 }
  · obtain rfl : _ = r := by simpa [herr] using h
    exact { kind := hkinds.2, info := .inr ⟨by simp [indexedKinds], indexInfo_lt_slen hk, hs⟩ }

/-- `version_encode` fails with the two kinds of VENC (R74). -/
theorem versionEncode_raises {t n : Byte} {k : ErrorKind} (h : versionEncode t n = .error k) : k ∈ kindsOf .venc := by
  cases hc : classOf n with
  | none =>
    obtain rfl : _ = k := by simpa [versionEncode, hc] using h
    decide
  | some cls =>
    by_cases ht : 1 < t.toNat
    · obtain rfl : _ = k := by simpa [versionEncode, hc, ht] using h
      decide
    · simp [versionEncode, hc, ht] at h

/-! The length of what RG85 writes. -/

/-- A bit string has `w` digits for each value. -/
theorem bitStream_length (w : Nat) (xs : List Nat) : (bitStream w xs).length = xs.length * w := by
  simp [bitStream, List.length_flatMap, bitsMsb]

/-- `slices` lists as many groups as it is asked for. -/
theorem slices_length (w q : Nat) (bs : List Bool) : (slices w q bs).length = q := by
  induction q generalizing bs with
  | zero => rfl
  | succ q ih => simp [slices, ih]

/-- RG85 makes `groupCount n` groups of `n` bytes (R58). -/
theorem regroupPadded_length_groupCount (xs : List Nat) :
    (regroupPadded xs 8 5).length = groupCount xs.length := by
  have hwhole : (wholeGroups 8 5 xs).length = xs.length * 8 / 5 := by
    rw [wholeGroups, slices_length, bitStream_length]
  have hrest : (leftover 8 5 xs).length = xs.length * 8 - xs.length * 8 / 5 * 5 := by
    rw [leftover, List.length_drop, bitStream_length]
  by_cases h0 : (leftover 8 5 xs).length = 0
  · rw [regroupPadded, if_pos h0, hwhole, groupCount]; omega
  · rw [regroupPadded, if_neg h0, List.length_append, hwhole, groupCount, List.length_singleton]; omega

/-! The answer of each command: the checks decide between a raise and the writes, and a check reads the same in every
state alike. -/

theorem answer_nop (s : State) : Answer .nop s :=
  .writes (.keep s) {} fun _ ⟨_, _, _, _⟩ => rfl

theorem answer_clr (s : State) : Answer .clr s :=
  .writes { slen := 0, arg0 := 0, arg1 := 0, res0 := 0, res1 := 0, c := 1, base := 0, cells := [] }
    { slen := .inr (by decide), args := .inr rfl, res0 := .inr (by decide), res1 := .inr (by decide),
      c := .inr (by decide), valid := fun _ _ hj => absurd hj (Nat.not_lt_zero _) }
    fun _ ⟨_, _, _, _⟩ => rfl

theorem answer_b32e (s : State) : Answer .b32e s := by
  rcases scalarGroup_cases s.arg0 with ⟨_, hv⟩ | ⟨_, hv⟩
  · refine .writes { Writes.keep s with res0 := valueToChar (toGroup s.arg0) } { res0 := .inr (by decide) } ?_
    rintro _ ⟨e, x, m, _⟩
    simp only [exec, execB32e, hv]; rfl
  · refine .raises ⟨.invalidValue, 0⟩ { kind := by decide } ?_
    rintro _ ⟨e, x, m, _⟩
    simp only [exec, execB32e, hv]; rfl

theorem answer_b32d (s : State) : Answer .b32d s := by
  cases hv : charToValue s.arg0 with
  | some v =>
    refine .writes { Writes.keep s with res0 := v.setWidth 8 } { res0 := .inr (by decide) } ?_
    rintro _ ⟨e, x, m, _⟩
    simp only [exec, execB32d, hv]; rfl
  | none =>
    refine .raises ⟨.invalidCharacter, 0⟩ { kind := by decide } ?_
    rintro _ ⟨e, x, m, _⟩
    simp only [exec, execB32d, hv]; rfl

theorem answer_b32es (s : State) : Answer .b32es s := by
  cases hg : groupsOperand s with
  | error r =>
    refine .raises r (groupsOperand_raises hg (by decide)) fun s' h => ?_
    simp only [exec, execB32es, h.groupsOperand_eq, hg]; rfl
  | ok gs =>
    refine .writes { Writes.keep s with cells := gs.map valueToChar } { cells := .inr (by decide) } fun s' h => ?_
    simp only [exec, execB32es, h.groupsOperand_eq, hg]
    obtain ⟨e, x, m, _⟩ := h; rfl

theorem answer_b32ds (s : State) : Answer .b32ds s := by
  rcases bufferOperand_cases s with ⟨hs, hb⟩ | ⟨_, hb⟩
  · cases hcase : checkCase s.sbv with
    | error r =>
      obtain ⟨hk, hi⟩ := checkCase_raises hcase
      refine .raises r { kind := hk ▸ by decide, info := .inr ⟨hk ▸ by decide, hi, hs⟩ } fun s' h => ?_
      simp only [exec, execB32ds, h.bufferOperand_eq, hb, bind, Except.bind, hcase]; rfl
    | ok _ =>
      cases hchar : checkCells .invalidCharacter (fun ch => (charToValue ch).isNone) s.sbv with
      | error r =>
        obtain ⟨hk, hi⟩ := checkCells_raises hchar
        refine .raises r { kind := hk ▸ by decide, info := .inr ⟨hk ▸ by decide, hi, hs⟩ } fun s' h => ?_
        simp only [exec, execB32ds, h.bufferOperand_eq, hb, bind, Except.bind, hcase, hchar]; rfl
      | ok _ =>
        refine .writes { Writes.keep s with cells := (s.sbv.filterMap charToValue).map (·.setWidth 8) }
          { cells := .inr (by decide) } fun s' h => ?_
        simp only [exec, execB32ds, h.bufferOperand_eq, hb, bind, Except.bind, hcase, hchar]
        obtain ⟨e, x, m, _⟩ := h; rfl
  · refine .raises ⟨.capacityExceeded, 0⟩ { kind := by decide } fun s' h => ?_
    simp only [exec, execB32ds, h.bufferOperand_eq, hb]; rfl

/-- The new `SLEN` of RG85 is the length of its result. -/
theorem answer_rg85 (s : State) : Answer .rg85 s := by
  rcases checkCapacity_cases (groupCount s.slen.toNat) with ⟨hm, hc⟩ | ⟨_, hc⟩
  · have hlen : s.sb.wf = true → (regroupPadded (s.sbv.map BitVec.toNat) 8 5).length = groupCount s.slen.toNat := by
      intro hw
      have hs : s.slen.toNat ≤ Config.sbDepth := by simp only [groupCount] at hm; omega
      rw [regroupPadded_length_groupCount, List.length_map, State.sbv_length hw hs]
    refine .writes { Writes.keep s with
        slen := BitVec.ofNat 8 (groupCount s.slen.toNat),
        cells := (regroupPadded (s.sbv.map BitVec.toNat) 8 5).map (BitVec.ofNat 8) }
      { slen := .inr (by decide), cells := .inr (by decide), valid := fun hw j hj => .inr ⟨Nat.zero_le j, ?_⟩ }
      fun s' h => ?_
    · have : j < groupCount s.slen.toNat := Nat.lt_of_lt_of_le hj (by simpa using Nat.mod_le _ 256)
      simpa [Writes.keep, hlen hw] using this
    · simp only [exec, execRg85, h.slen_eq, hc, h.sbv_eq]
      obtain ⟨e, x, m, _⟩ := h; rfl
  · refine .raises ⟨.capacityExceeded, 0⟩ { kind := by decide } ?_
    rintro _ ⟨e, x, m, _⟩
    simp only [exec, execRg85, hc]; rfl

theorem answer_rg58 (s : State) : Answer .rg58 s := by
  cases hg : groupsOperand s with
  | error r =>
    refine .raises r (groupsOperand_raises hg (by decide)) fun s' h => ?_
    simp only [exec, execRg58, h.groupsOperand_eq, hg]; rfl
  | ok gs =>
    cases hr : regroup (gs.map BitVec.toNat) 5 8 false with
    | none =>
      refine .raises ⟨.invalidPadding, 0⟩ { kind := by decide } fun s' h => ?_
      simp only [exec, execRg58, h.groupsOperand_eq, hg, bind, Except.bind, hr]; rfl
    | some out =>
      refine .writes { Writes.keep s with slen := BitVec.ofNat 8 out.length, cells := out.map (BitVec.ofNat 8) }
        { slen := .inr (by decide), cells := .inr (by decide), valid := fun _ j hj => .inr ⟨Nat.zero_le j, ?_⟩ }
        fun s' h => ?_
      · have : j < out.length := Nat.lt_of_lt_of_le hj (by simpa using Nat.mod_le _ 256)
        simpa [Writes.keep] using this
      · simp only [exec, execRg58, h.groupsOperand_eq, hg, bind, Except.bind, hr]
        obtain ⟨e, x, m, _⟩ := h; rfl

theorem answer_pminit (s : State) : Answer .pminit s :=
  .writes { Writes.keep s with c := 1 } { c := .inr (by decide) } fun _ ⟨_, _, _, _⟩ => rfl

theorem answer_pmpush (s : State) : Answer .pmpush s := by
  rcases scalarGroup_cases s.arg0 with ⟨_, hv⟩ | ⟨_, hv⟩
  · refine .writes { Writes.keep s with c := pmStep s.gen s.c (toGroup s.arg0) } { c := .inr (by decide) } ?_
    rintro _ ⟨e, x, m, _⟩
    simp only [exec, execPmpush, hv]; rfl
  · refine .raises ⟨.invalidValue, 0⟩ { kind := by decide } ?_
    rintro _ ⟨e, x, m, _⟩
    simp only [exec, execPmpush, hv]; rfl

theorem answer_pmrun (s : State) : Answer .pmrun s := by
  cases hg : groupsOperand s with
  | error r =>
    refine .raises r (groupsOperand_raises hg (by decide)) fun s' h => ?_
    simp only [exec, execPmrun, h.groupsOperand_eq, hg]; rfl
  | ok gs =>
    refine .writes { Writes.keep s with c := polymod s.gen s.c gs } { c := .inr (by decide) } fun s' h => ?_
    simp only [exec, execPmrun, h.groupsOperand_eq, hg]
    obtain ⟨e, x, m, _⟩ := h; rfl

/-- The eight cells PMEMBED appends are the ones that become valid. -/
theorem answer_pmembed (s : State) : Answer .pmembed s := by
  rcases checkCapacity_cases (s.slen.toNat + 8) with ⟨_, hc⟩ | ⟨_, hc⟩
  · refine .writes { Writes.keep s with
        slen := s.slen + 8, c := polymod s.gen s.c (List.replicate 8 0), base := s.slen.toNat,
        cells := (split40 (residue (polymod s.gen s.c (List.replicate 8 0)))).map (·.setWidth 8) }
      { slen := .inr (by decide), c := .inr (by decide), cells := .inr (by decide), valid := fun _ j hj => ?_ } ?_
    · have hle : (s.slen + 8).toNat ≤ s.slen.toNat + 8 := by simpa using Nat.mod_le _ 256
      simp only [List.length_map, split40, List.length_range]
      simp only at hj
      omega
    · rintro _ ⟨e, x, m, _⟩
      simp only [exec, execPmembed, hc]; rfl
  · refine .raises ⟨.capacityExceeded, 0⟩ { kind := by decide } ?_
    rintro _ ⟨e, x, m, _⟩
    simp only [exec, execPmembed, hc]; rfl

theorem answer_pmcheck (s : State) : Answer .pmcheck s := by
  by_cases hv : s.c = 1
  · refine .writes (.keep s) {} ?_
    rintro _ ⟨e, x, m, _⟩
    exact congrArg (complete _) (if_pos hv)
  · refine .raises ⟨.checksumMismatch, 0⟩ { kind := by decide } ?_
    rintro _ ⟨e, x, m, _⟩
    exact congrArg (complete _) (if_neg hv)

theorem answer_venc (s : State) : Answer .venc s := by
  cases hv : versionEncode s.arg0 s.arg1 with
  | error k =>
    refine .raises ⟨k, 0⟩ { kind := versionEncode_raises hv } ?_
    rintro _ ⟨e, x, m, _⟩
    simp only [exec, execVenc, hv]; rfl
  | ok b =>
    refine .writes { Writes.keep s with res0 := b } { res0 := .inr (by decide) } ?_
    rintro _ ⟨e, x, m, _⟩
    simp only [exec, execVenc, hv]; rfl

theorem answer_vdec (s : State) : Answer .vdec s :=
  .writes { Writes.keep s with res0 := (versionDecode s.arg0).1.setWidth 8, res1 := (versionDecode s.arg0).2 }
    { res0 := .inr (by decide), res1 := .inr ⟨.inr (List.getElem_mem _), by decide⟩ } fun _ ⟨_, _, _, _⟩ => rfl

/-- Every command has an answer, the same in all states alike. -/
theorem exec_answer (i : Instr) (s : State) : Answer i s := by
  cases i with
  | nop => exact answer_nop s
  | clr => exact answer_clr s
  | b32e => exact answer_b32e s
  | b32d => exact answer_b32d s
  | b32es => exact answer_b32es s
  | b32ds => exact answer_b32ds s
  | rg85 => exact answer_rg85 s
  | rg58 => exact answer_rg58 s
  | pminit => exact answer_pminit s
  | pmpush => exact answer_pmpush s
  | pmrun => exact answer_pmrun s
  | pmembed => exact answer_pmembed s
  | pmcheck => exact answer_pmcheck s
  | venc => exact answer_venc s
  | vdec => exact answer_vdec s

/-- Everything a command can leave: the state it found with an error of its own recorded, or its own writes done and
the status clear. -/
theorem exec_next_cases {i : Instr} {s t : State} (h : exec i s = .next t) :
    (∃ r : Raise, r.Fits i s ∧ t = s.withStatus (some r.kind) r.info) ∨
      ∃ w : Writes, w.Fits i s ∧ t = (w.apply s).withStatus none 0 := by
  rcases exec_answer i s with ⟨r, fits, runs⟩ | ⟨w, fits, runs⟩
  · exact .inl ⟨r, fits, by simpa [raise, eq_comm] using (runs s s.alike_refl).symm.trans h⟩
  · exact .inr ⟨w, fits, by simpa [succeed, eq_comm] using (runs s s.alike_refl).symm.trans h⟩

end Sys2Proof.Machine
end

section
/-! The statements of 10_state.md: what a command may read and write, the invariant of the block, the state after reset,
and the status. -/

namespace Sys2Proof.Machine

/-- What a run of writes leaves in every cell, whether or not it stays inside the buffer. -/
theorem Memory.read_writeFrom (m : Memory) (base : Nat) (vs : List Byte) (j : Nat) :
    (m.writeFrom base vs).read j =
      if base ≤ j ∧ j < base + vs.length then (m.read j).bind fun _ => vs[j - base]? else m.read j := by
  induction vs generalizing m base with
  | nil => rw [Memory.writeFrom, if_neg (by simp only [List.length_nil]; omega)]
  | cons v vs ih =>
    rw [Memory.writeFrom, ih, List.length_cons]
    by_cases hj : j = base
    · subst hj
      rw [if_neg (by omega), if_pos (by omega), Memory.read_write_self]
      cases m.read j <;> simp
    · rw [Memory.read_write_of_ne m v hj]
      by_cases hin : base + 1 ≤ j ∧ j < base + 1 + vs.length
      · rw [if_pos hin, if_pos (by omega), show j - base = (j - (base + 1)) + 1 by omega, List.getElem?_cons_succ]
      · rw [if_neg hin, if_neg (by omega)]

/-- A cell outside a run of writes keeps its content. -/
theorem Memory.read_writeFrom_outside (m : Memory) {base j : Nat} {vs : List Byte}
    (h : ¬ (base ≤ j ∧ j < base + vs.length)) : (m.writeFrom base vs).read j = m.read j := by
  rw [Memory.read_writeFrom, if_neg h]

/-- Inside a run of writes two buffers of the right form read alike afterwards, whatever they held. -/
theorem Memory.read_writeFrom_inside {m m' : Memory} (hm : m.wf = true) (hm' : m'.wf = true) {base j : Nat}
    {vs : List Byte} (h : base ≤ j ∧ j < base + vs.length) :
    (m.writeFrom base vs).read j = (m'.writeFrom base vs).read j := by
  have hsome : (m.read j).isSome = (m'.read j).isSome :=
    Bool.eq_iff_iff.2 ((Memory.read_isSome_of_wf hm j).trans (Memory.read_isSome_of_wf hm' j).symm)
  rw [Memory.read_writeFrom, Memory.read_writeFrom, if_pos h, if_pos h]
  cases hr : m.read j <;> cases hr' : m'.read j <;> simp [hr, hr'] at hsome ⊢

/-- Settles O50: a command answers alike in alike states (`exec_answer`), so it raises the same error or writes the same
run of cells; a cell valid afterwards was valid before or lies in that run (R15, R103). -/
theorem staleCellsAreNeverAnInput : Obligations.StaleCellsAreNeverAnInput := by
  unfold Obligations.StaleCellsAreNeverAnInput
  intro i s m hs hm same
  have alike : s.Alike { s with sb := m } := ⟨s.ecode, s.einfo, m, Memory.firstCells_congr same⟩
  rcases exec_answer i s with ⟨r, _, runs⟩ | ⟨w, fits, runs⟩
  · exact ⟨s.withStatus (some r.kind) r.info, m, runs s s.alike_refl, runs _ alike, same, fun _ => .inr ⟨rfl, rfl⟩⟩
  · refine ⟨(w.apply s).withStatus none 0, m.writeFrom w.base w.cells, runs s s.alike_refl, runs _ alike,
      fun j hj => ?_, fun j => ?_⟩
    · by_cases hin : w.base ≤ j ∧ j < w.base + w.cells.length
      · exact Memory.read_writeFrom_inside hm hs hin
      · have hvalid : j < s.slen.toNat := (fits.valid hs j hj).resolve_right hin
        calc (m.writeFrom w.base w.cells).read j = m.read j := m.read_writeFrom_outside hin
          _ = s.sb.read j := same j hvalid
          _ = (s.sb.writeFrom w.base w.cells).read j := (s.sb.read_writeFrom_outside hin).symm
    · by_cases hin : w.base ≤ j ∧ j < w.base + w.cells.length
      · exact .inl (Memory.read_writeFrom_inside hm hs hin)
      · exact .inr ⟨s.sb.read_writeFrom_outside hin, m.read_writeFrom_outside hin⟩

/-- The `EINFO` of a command without an index is in range. -/
theorem zero_toNat_lt_sbDepth : (0 : Byte).toNat < Config.sbDepth := by decide

/-- The block after every reset meets the invariant, whatever the cells hold (R18). -/
theorem Block.afterReset_inv (n : Nat) : (Block.afterReset n).Inv where
  cells := Memory.afterReset_wf n
  status := (by decide : statusFitsWord 0x00 none = true)
  info h := absurd rfl h
  infoBound := zero_toNat_lt_sbDepth
  length := .inl rfl

/-- A command word that decodes leaves the invariant, whatever the status was before. -/
theorem exec_establishes_inv {i : Instr} {s t : State} (hcmd : decode s.cmd = .ok i) (cells : s.sb.wf = true)
    (length : s.res1 = 0 ∨ s.res1 ∈ sizeTable) (h : exec i s = .next t) : t.toBlock.Inv := by
  rcases exec_next_cases h with ⟨r, ⟨kind, info⟩, rfl⟩ | ⟨w, fits, rfl⟩
  · refine ⟨cells, ?_, fun hne => ?_, ?_, length⟩
    · simpa [statusFitsWord, hcmd] using kind
    · exact ⟨r.kind, (info.resolve_left hne).1, rfl⟩
    · rcases info with h0 | ⟨_, hlt, hle⟩
      · simpa only [State.withStatus_einfo, h0] using zero_toNat_lt_sbDepth
      · exact Nat.lt_of_lt_of_le hlt hle
  · refine ⟨?_, ?_, fun hne => absurd rfl hne, zero_toNat_lt_sbDepth, ?_⟩
    · simpa [Writes.apply] using cells
    · simp [statusFitsWord, Writes.apply, hcmd]
    · rcases fits.res1 with hkeep | ⟨hlegal, _⟩
      · simpa [Writes.apply, hkeep] using length
      · exact hlegal

/-- A write to `CMD` keeps the invariant, for legal and illegal words (R8, R82). -/
theorem runWord_keeps_inv {w : Byte} {s t : State} (hs : s.toBlock.Inv) (h : runWord w s = .next t) :
    t.toBlock.Inv := by
  cases hw : decode w with
  | ok i =>
    rw [runWord_ok hw] at h
    exact exec_establishes_inv (s := s.withCmd w) hw hs.cells hs.length h
  | error r =>
    obtain rfl : _ = t := by simpa [runWord_error hw] using h
    exact ⟨hs.cells, by simp [statusFitsWord, hw], fun hne => absurd rfl hne, zero_toNat_lt_sbDepth, hs.length⟩

/-- A write of the host keeps the invariant: `CMD` runs a word, `SB` keeps its form, and the invariant does not speak
of what the other offsets set. -/
theorem hostWrite_keeps_inv {v : Byte} {s t : State} {r : HostReg} (hs : s.toBlock.Inv)
    (h : hostWrite v s r = .next t) : t.toBlock.Inv := by
  cases r
  case cmd => exact runWord_keeps_inv hs h
  case sb k =>
    obtain rfl : _ = t := by simpa [hostWrite] using h
    exact ⟨by simpa using hs.cells, hs.status, hs.info, hs.infoBound, hs.length⟩
  all_goals
    obtain rfl : _ = t := by simpa [hostWrite] using h
    exact ⟨hs.cells, hs.status, hs.info, hs.infoBound, hs.length⟩

/-- No command changes `CMD`, the generator terms or the host's side. -/
theorem exec_frame {i : Instr} {s t : State} (h : exec i s = .next t) :
    t.cmd = s.cmd ∧ t.pending = s.pending ∧ t.replies = s.replies ∧ t.resets = s.resets ∧ t.gen = s.gen := by
  rcases exec_next_cases h with ⟨r, _, rfl⟩ | ⟨w, _, rfl⟩
  · exact ⟨rfl, rfl, rfl, rfl, rfl⟩
  · exact ⟨rfl, rfl, rfl, rfl, rfl⟩

/-- No write of the host changes the generator terms (R29). -/
theorem hostWrite_gen {v : Byte} {s t : State} {r : HostReg} (h : hostWrite v s r = .next t) : t.gen = s.gen := by
  cases r
  case cmd =>
    cases hw : decode v with
    | ok i =>
      simp only [hostWrite, runWord_ok hw] at h
      obtain ⟨_, _, _, _, hgen⟩ := exec_frame h
      exact hgen
    | error r =>
      obtain rfl : _ = t := by simpa [hostWrite, runWord_error hw] using h
      rfl
  all_goals
    obtain rfl : _ = t := by simpa [hostWrite] using h
    rfl

/-- Every step keeps the invariant of the block. -/
theorem step_keeps_inv {s t : State} (hs : s.toBlock.Inv) (h : step s = .next t) : t.toBlock.Inv := by
  obtain ⟨_, hstep⟩ | ⟨rest, ⟨off, v, _, hstep⟩ | ⟨off, _, hstep⟩ | ⟨_, hstep⟩⟩ := step_cases s <;> rw [hstep] at h
  · cases h; exact hs
  · exact hostWrite_keeps_inv (s := { s with pending := rest }) hs h
  · cases h; exact hs
  · cases h; exact Block.afterReset_inv _

/-- No step changes the generator terms (R29, R102). -/
theorem step_gen {s t : State} (h : step s = .next t) : t.gen = s.gen := by
  obtain ⟨_, hstep⟩ | ⟨rest, ⟨off, v, _, hstep⟩ | ⟨off, _, hstep⟩ | ⟨_, hstep⟩⟩ := step_cases s <;> rw [hstep] at h
  · cases h; rfl
  · exact hostWrite_gen (s := { s with pending := rest }) h
  · cases h; rfl
  · cases h; rfl

/-- Settles O52: the two facts about a step, each by what a step can be (`step_cases`). -/
theorem everyStepKeepsTheInvariant : Obligations.EveryStepKeepsTheInvariant := by
  unfold Obligations.EveryStepKeepsTheInvariant
  exact ⟨fun _ _ => step_keeps_inv, fun _ _ => step_gen⟩

/-- The status a command finds is not read. -/
theorem exec_withStatus (i : Instr) (s : State) (e : Option ErrorKind) (x : Byte) :
    exec i (s.withStatus e x) = exec i s := by
  have alike : s.Alike (s.withStatus e x) := ⟨e, x, s.sb, rfl⟩
  rcases exec_answer i s with ⟨r, _, runs⟩ | ⟨w, _, runs⟩
  · rw [runs s s.alike_refl, runs _ alike]; rfl
  · rw [runs s s.alike_refl, runs _ alike]; rfl

/-- Settles O48: the status is not read, and all that a failed command changed is the status (R94). -/
theorem noCommandReadsTheStatus : Obligations.NoCommandReadsTheStatus := by
  unfold Obligations.NoCommandReadsTheStatus
  refine ⟨exec_withStatus, fun i s t h hfail => ?_⟩
  rcases exec_cases h with ⟨k, info, rfl⟩ | ⟨u, rfl⟩
  · rw [exec_withStatus, h]
  · exact absurd rfl hfail

/-- Settles O49: a raise writes the status only, and other writes fit the command (`Writes.Fits`). -/
theorem eachRegisterHasItsWriters : Obligations.EachRegisterHasItsWriters := by
  unfold Obligations.EachRegisterHasItsWriters
  intro i s t h
  obtain ⟨hcmd, hpending, hreplies, hresets, hgen⟩ := exec_frame h
  refine ⟨hcmd, hpending, hreplies, hresets, hgen, ?_⟩
  rcases exec_next_cases h with ⟨r, _, rfl⟩ | ⟨w, fits, rfl⟩
  · exact ⟨fun _ => rfl, fun _ => ⟨rfl, rfl⟩, fun _ => rfl, fun _ => rfl, fun _ => rfl, fun _ => rfl⟩
  · refine ⟨fits.slen.resolve_right, fits.args.resolve_right, fits.res0.resolve_right,
      fun hi => fits.res1.resolve_right fun hw => hi hw.2, fits.c.resolve_right, fun hi => ?_⟩
    simp [Writes.apply, fits.cells.resolve_right hi, Memory.writeFrom]

/-- Settles O4: the step hands the word to `runWord`, which runs what it decodes to. -/
theorem cmdWriteRunsTheDecodedCommand : Obligations.CmdWriteRunsTheDecodedCommand := by
  unfold Obligations.CmdWriteRunsTheDecodedCommand
  intro s rest w i hpending hw
  calc step s = transact { s with pending := rest } (.write 0x000 w) := step_pending hpending
    _ = runWord w { s with pending := rest } := rfl
    _ = exec i { s with pending := rest, cmd := w } := runWord_ok hw _

/-- Settles O8, by the ten values of `ECODE`. -/
theorem statusIsErrZerosAndEcode : Obligations.StatusIsErrZerosAndEcode := by
  unfold Obligations.StatusIsErrZerosAndEcode
  refine ⟨fun e => ?_, by decide, by decide, by decide, by decide, by decide, by decide, by decide, by decide,
    by decide, by decide, fun e => ?_⟩
  · rcases e with _ | k
    · decide
    · cases k <;> decide
  · rcases e with _ | k
    · decide
    · cases k <;> decide

/-- Settles O13: the registers by the definition, the cells by the form of the buffer after reset. -/
theorem initialStateIsTheResetState : Obligations.InitialStateIsTheResetState := by
  unfold Obligations.InitialStateIsTheResetState
  refine ⟨rfl, rfl, by decide, rfl, rfl, rfl, rfl, rfl, rfl, rfl, fun j => ?_⟩
  rw [Bool.eq_iff_iff, decide_eq_true_iff]
  exact Memory.read_isSome_of_wf (Memory.afterReset_wf 0) j

/-- Settles O53: the initial block is the one after reset 0. -/
theorem resetMeetsTheInvariant : Obligations.ResetMeetsTheInvariant := by
  unfold Obligations.ResetMeetsTheInvariant
  exact ⟨Block.afterReset_inv 0, Block.afterReset_inv⟩

end Sys2Proof.Machine
end

section
/-! SUPPORT. The register map (R26) and what one host transaction does to the block and to the host's side. -/

namespace Sys2Proof.Machine

/-- Below offset 0x100 the map names a register. -/
theorem HostReg.ofOffset_low {off : Offset} (h : off.toNat < 0x100) :
    HostReg.ofOffset off = HostReg.ofLowOffset off.toNat := if_pos h

/-- Offset 0x100 + i names the cell `SB[i]`. -/
theorem HostReg.ofOffset_cell {off : Offset} {i : Nat} (hi : i < Config.sbDepth) (h : off.toNat = 0x100 + i) :
    HostReg.ofOffset off = .sb i := by
  rw [HostReg.ofOffset, if_neg (by omega), h, Nat.add_sub_cancel_left, if_pos hi]

/-- Above the cells every offset is reserved. -/
theorem HostReg.ofOffset_aboveCells {off : Offset} (h : 0x100 + Config.sbDepth ≤ off.toNat) :
    HostReg.ofOffset off = .reserved := by
  rw [HostReg.ofOffset, if_neg (by omega), if_neg (by omega)]

/-- From C4 up to the first cell every offset is reserved. -/
theorem HostReg.ofLowOffset_reserved {n : Nat} (h : 0x00D ≤ n) : HostReg.ofLowOffset n = .reserved := by
  obtain ⟨k, rfl⟩ := Nat.exists_eq_add_of_le' h
  rfl

/-- No register below 0x100 is a cell. -/
theorem HostReg.ofLowOffset_ne_sb (n i : Nat) : HostReg.ofLowOffset n ≠ .sb i := by
  unfold HostReg.ofLowOffset
  split <;> exact HostReg.noConfusion

/-- From RES0 up to the first cell no offset is writable. -/
theorem HostReg.ofLowOffset_readOnly {n : Nat} (h : 0x006 ≤ n) : (HostReg.ofLowOffset n).writable = false := by
  rcases Nat.lt_or_ge n 0x00D with hlt | hge
  · interval_cases n <;> rfl
  · rw [HostReg.ofLowOffset_reserved hge]; rfl

/-- C0 to C4 read as the bytes of the accumulator (R14). -/
theorem hostRead_accumulatorByte (s : State) {off : Offset} {k : Nat} (hk : k < 5) (h : off.toNat = 0x008 + k) :
    hostRead s (HostReg.ofOffset off) = accByte s.c k := by
  rw [HostReg.ofOffset_low (by omega), h]
  match k, hk with
  | 0, _ | 1, _ | 2, _ | 3, _ | 4, _ => rfl

/-- A byte of the accumulator, by shifting it down. -/
theorem accByte_eq_shift (c : Acc) (k : Nat) : accByte c k = (c >>> (8 * k)).setWidth 8 :=
  BitVec.setWidth_ushiftRight_eq_extractLsb.symm

/-- A write to `CMD` leaves the word in `CMD` and the host's side as it was, whether or not the command fails (R8). -/
theorem runWord_answer (w : Byte) (s : State) :
    ∃ t, runWord w s = .next t ∧ t.cmd = w ∧ t.pending = s.pending ∧ t.replies = s.replies := by
  cases hw : decode w with
  | ok i =>
    obtain ⟨e, he⟩ := exec_eq_complete i (s.withCmd w)
    obtain ⟨t, ht⟩ := complete_next (s.withCmd w) e
    have hexec : exec i (s.withCmd w) = .next t := he.trans ht
    obtain ⟨hcmd, hpending, hreplies, _, _⟩ := exec_frame hexec
    exact ⟨t, (runWord_ok hw s).trans hexec, hcmd, hpending, hreplies⟩
  | error r => exact ⟨_, runWord_error hw s, rfl, rfl, rfl⟩

/-- A host write answers a next state and leaves the host's side as it was. -/
theorem hostWrite_answer (v : Byte) (s : State) (r : HostReg) :
    ∃ t, hostWrite v s r = .next t ∧ t.pending = s.pending ∧ t.replies = s.replies := by
  cases r
  case cmd =>
    obtain ⟨t, hrun, _, hpending, hreplies⟩ := runWord_answer v s
    exact ⟨t, hrun, hpending, hreplies⟩
  all_goals exact ⟨_, rfl, rfl, rfl⟩

/-- What a host write leaves in the writable register or cell is what a host read of it then gives. -/
theorem hostRead_of_hostWrite {v : Byte} {s t : State} {r : HostReg} (hwf : s.sb.wf = true)
    (hr : r.writable = true) (h : hostWrite v s r = .next t) : hostRead t r = v := by
  cases r
  case cmd =>
    obtain ⟨u, hrun, hcmd, _, _⟩ := runWord_answer v s
    obtain rfl : u = t := by simpa [hostWrite, hrun] using h
    exact hcmd
  case sb i =>
    obtain rfl : _ = t := by simpa [hostWrite] using h
    have hi : i < Config.sbDepth := of_decide_eq_true hr
    simp [hostRead, Memory.read_write hwf hi]
  case slen | arg0 | arg1 =>
    obtain rfl : _ = t := by simpa [hostWrite] using h
    rfl
  all_goals cases hr

/-- A step on a read delivers the content of the register or cell and changes nothing of the block (R21, R25). -/
theorem step_read {s : State} {off : Offset} {rest : List HostEvent} (h : s.pending = .read off :: rest) :
    step s =
      .next { s with pending := rest, replies := s.replies ++ [hostRead s (HostReg.ofOffset off)] } := by
  rw [step_pending h]
  cases hr : HostReg.ofOffset off <;> simp [transact, hr, hostRead]

/-- A step on a write is the host write of the register the offset names. -/
theorem step_write {s : State} {off : Offset} {v : Byte} {rest : List HostEvent}
    (h : s.pending = .write off v :: rest) :
    step s = hostWrite v { s with pending := rest } (HostReg.ofOffset off) := step_pending h

/-- A step on a write to a register that is read-only or reserved only consumes the transaction (R22). -/
theorem step_write_ignored {s : State} {off : Offset} {v : Byte} {rest : List HostEvent}
    (h : s.pending = .write off v :: rest) (hro : (HostReg.ofOffset off).writable = false)
    (hsb : ∀ i, HostReg.ofOffset off ≠ .sb i) : step s = .next { s with pending := rest } :=
  (step_write h).trans (hostWrite_ignored v _ _ hro hsb)

end Sys2Proof.Machine
end

section
/-! The statements of 20_memory.md: the order of the host's transactions, what its writes and reads do, and the commands
that can be repeated. -/

namespace Sys2Proof.Machine

/-- Settles O9: by the kind of the oldest transaction; a write answers on a state that has the later ones. -/
theorem transactionsTakeEffectInProgramOrder : Obligations.TransactionsTakeEffectInProgramOrder := by
  unfold Obligations.TransactionsTakeEffectInProgramOrder
  intro s t e rest hpending hstep
  cases e with
  | write off v =>
    obtain ⟨u, hwrite, hrest, hreplies⟩ := hostWrite_answer v { s with pending := rest } (HostReg.ofOffset off)
    obtain rfl : u = t := by simpa [step_write hpending, hwrite] using hstep
    exact ⟨hrest, [], by simpa using hreplies, rfl⟩
  | read off =>
    obtain rfl : _ = t := by simpa [step_read hpending] using hstep
    exact ⟨rfl, [_], rfl, rfl⟩
  | reset =>
    obtain rfl : _ = t := by simpa [step_pending hpending, transact] using hstep
    exact ⟨rfl, [], by simp, rfl⟩

/-- Settles O10: the write leaves the value where the read finds it (`hostRead_of_hostWrite`), and the read pending. -/
theorem hostReadReturnsTheLatestWrite : Obligations.HostReadReturnsTheLatestWrite := by
  unfold Obligations.HostReadReturnsTheLatestWrite
  intro s off v rest hwf hwritable hpending
  obtain ⟨t, hwrite, hread, hreplies⟩ :=
    hostWrite_answer v { s with pending := .read off :: rest } (HostReg.ofOffset off)
  have hvalue : hostRead t (HostReg.ofOffset off) = v :=
    hostRead_of_hostWrite (s := { s with pending := .read off :: rest }) hwf hwritable hwrite
  refine ⟨t, _, (step_write hpending).trans hwrite, step_read hread, ?_⟩
  rw [hvalue, hreplies]

/-- A command that checks its inputs and then writes, where the writes leave the inputs alone and doing them again
changes nothing, answers the state it left when it runs on that state (R25). -/
theorem exec_again_of_inputs_kept {i : Instr} {α β : Type} (inputs : State → α) (check : α → Except Raise β)
    (write : β → State → State) (runs : ∀ s, exec i s = complete s ((check (inputs s)).map (write · s)))
    (kept : ∀ v s, inputs (write v s) = inputs s := by exact fun _ _ => rfl)
    (again : ∀ v s, write v (write v s) = write v s := by exact fun _ _ => rfl)
    {s t : State} (h : exec i s = .next t) : exec i t = .next t := by
  cases hcheck : check (inputs s) with
  | error r =>
    have hfail : s.withStatus (some r.kind) r.info = t := by simpa [runs, hcheck, Except.map] using h
    calc exec i t = exec i s := by rw [← hfail, exec_withStatus]
      _ = .next t := h
  | ok v =>
    have hdone : (write v s).withStatus none 0 = t := by simpa [runs, hcheck, Except.map] using h
    calc exec i t = exec i (write v s) := by rw [← hdone, exec_withStatus]
      _ = .next ((write v (write v s)).withStatus none 0) := by rw [runs, kept, hcheck]; rfl
      _ = .next t := by rw [again, hdone]

/-- Settles O51: each command names its inputs and its writes for `exec_again_of_inputs_kept`; NOP, CLR and PMINIT have
no input. -/
theorem commandsThatKeepTheirInputsAreIdempotent : Obligations.CommandsThatKeepTheirInputsAreIdempotent := by
  unfold Obligations.CommandsThatKeepTheirInputsAreIdempotent
  intro i s t hi
  cases i
  case nop => exact exec_again_of_inputs_kept (fun _ => ()) .ok (fun _ s => s) fun _ => rfl
  case clr =>
    exact exec_again_of_inputs_kept (fun _ => ()) .ok
      (fun _ s => { s with slen := 0, arg0 := 0, arg1 := 0, res0 := 0, res1 := 0, c := 1 }) fun _ => rfl
  case pminit => exact exec_again_of_inputs_kept (fun _ => ()) .ok (fun _ s => { s with c := 1 }) fun _ => rfl
  case pmcheck =>
    refine exec_again_of_inputs_kept (·.c) (fun c => if c = 1 then .ok () else .error ⟨.checksumMismatch, 0⟩)
      (fun _ s => s) fun s => ?_
    simp only [exec, execPmcheck]
    split <;> rfl
  case b32e =>
    refine exec_again_of_inputs_kept (·.arg0) scalarGroup (fun v s => { s with res0 := valueToChar v }) fun s => ?_
    simp only [exec, execB32e]
    cases scalarGroup s.arg0 <;> rfl
  case b32d =>
    refine exec_again_of_inputs_kept (·.arg0) (fun ch => (charToValue ch).elim (.error ⟨.invalidCharacter, 0⟩) .ok)
      (fun v s => { s with res0 := v.setWidth 8 }) fun s => ?_
    simp only [exec, execB32d]
    cases charToValue s.arg0 <;> rfl
  case venc =>
    refine exec_again_of_inputs_kept (fun s => (s.arg0, s.arg1))
      (fun args => (versionEncode args.1 args.2).mapError (⟨·, 0⟩)) (fun b s => { s with res0 := b }) fun s => ?_
    simp only [exec, execVenc]
    cases versionEncode s.arg0 s.arg1 <;> rfl
  case vdec =>
    exact exec_again_of_inputs_kept (·.arg0) (fun b => .ok (versionDecode b))
      (fun d s => { s with res0 := d.1.setWidth 8, res1 := d.2 }) fun _ => rfl
  all_goals simp at hi

/-- Settles O6: the map names the register of each offset; a write of one cell is the run of writes of one value. -/
theorem hostWriteSetsTheRegisterAtTheOffset : Obligations.HostWriteSetsTheRegisterAtTheOffset := by
  unfold Obligations.HostWriteSetsTheRegisterAtTheOffset
  intro s rest off v hpending
  refine ⟨?slen, ?arg0, ?arg1, fun i hi hwf hoff => ?cell, ?ignored⟩
  case slen => rintro rfl; exact step_write hpending
  case arg0 => rintro rfl; exact step_write hpending
  case arg1 => rintro rfl; exact step_write hpending
  case cell =>
    refine ⟨s.sb.write i v, Memory.writeFrom_overwritten hwf i [v] hi, ?_⟩
    rw [step_write hpending, HostReg.ofOffset_cell hi hoff]
    rfl
  case ignored =>
    rintro (rfl | rfl | ⟨hlo, hhi⟩ | habove)
    · exact step_write hpending
    · exact step_write hpending
    · have hlow := HostReg.ofOffset_low hhi
      exact step_write_ignored hpending (hlow ▸ HostReg.ofLowOffset_readOnly hlo)
        (fun i => hlow ▸ HostReg.ofLowOffset_ne_sb _ i)
    · rw [step_write hpending, HostReg.ofOffset_aboveCells habove]
      rfl

/-- Settles O7: the value delivered is the content of what the map names at the offset. -/
theorem hostReadReturnsTheRegisterAtTheOffset : Obligations.HostReadReturnsTheRegisterAtTheOffset := by
  unfold Obligations.HostReadReturnsTheRegisterAtTheOffset
  intro s rest off hpending
  refine ⟨hostRead s (HostReg.ofOffset off), step_read hpending, ?_⟩
  refine ⟨?_, ?_, ?_, ?_, ?_, ?_, ?_, ?_, fun k hk hoff => ?accumulator, fun i hi u hoff hu => ?cell, ?reserved⟩
  case accumulator => rw [hostRead_accumulatorByte s hk hoff, accByte_eq_shift]
  case cell => simp [HostReg.ofOffset_cell hi hoff, hostRead, hu]
  case reserved =>
    rintro (⟨hlo, hhi⟩ | habove)
    · rw [HostReg.ofOffset_low hhi, HostReg.ofLowOffset_reserved hlo]; rfl
    · rw [HostReg.ofOffset_aboveCells habove]; rfl
  all_goals rintro rfl; rfl

end Sys2Proof.Machine
end

section
/-! SUPPORT. The command word (R32, R33): the word's two fields, the rows of the command table, and what the decoder
answers by them. -/

namespace Sys2Proof

/-- A word is its two four-bit fields, `rsv` above `opc` (R33). -/
theorem word_toNat_eq_fields (w : Byte) :
    w.toNat = 16 * (w.extractLsb' 4 4).toNat + (w.extractLsb' 0 4).toNat := by
  simp only [BitVec.extractLsb'_toNat, Nat.shiftRight_eq_div_pow]
  omega

/-- The commands in the order of their numbers (R32). -/
def commandTable : List Instr :=
  [.nop, .clr, .b32e, .b32d, .b32es, .b32ds, .rg85, .rg58, .pminit, .pmpush, .pmrun, .pmembed, .pmcheck, .venc, .vdec]

/-- An opcode below 0xF selects its row of the table, and the command there has that number as its word. -/
theorem decodeOpcode_row :
    ∀ n < 15, ∃ i, commandTable[n]? = some i ∧ decodeOpcode n = .ok i ∧ (encode i).toNat = n := by decide

theorem decodeOpcode_reserved : decodeOpcode 15 = .error .reservedOpcode := rfl

theorem decode_of_rsv_zero {w : Byte} (h : w.extractLsb' 4 4 = 0) :
    decode w = decodeOpcode (w.extractLsb' 0 4).toNat := if_pos h

theorem decode_of_rsv_ne_zero {w : Byte} (h : w.extractLsb' 4 4 ≠ 0) : decode w = .error .reservedBitSet := if_neg h

theorem decode_of_opc_reserved {w : Byte} (hrsv : w.extractLsb' 4 4 = 0) (hopc : w.extractLsb' 0 4 = 0xF) :
    decode w = .error .reservedOpcode := by
  rw [decode_of_rsv_zero hrsv, hopc]
  exact decodeOpcode_reserved

/-- A word with both fields legal decodes to its opcode's row of the table, and is the word of the command there. -/
theorem decode_row {w : Byte} (hrsv : w.extractLsb' 4 4 = 0) (hopc : w.extractLsb' 0 4 ≠ 0xF) :
    ∃ i, commandTable[(w.extractLsb' 0 4).toNat]? = some i ∧ decode w = .ok i ∧ encode i = w := by
  have hlt : (w.extractLsb' 0 4).toNat < 15 := by bv_omega
  obtain ⟨i, hrow, hdecode, hencode⟩ := decodeOpcode_row _ hlt
  refine ⟨i, hrow, (decode_of_rsv_zero hrsv).trans hdecode, BitVec.eq_of_toNat_eq ?_⟩
  rw [hencode, word_toNat_eq_fields w, hrsv]
  simp

theorem decode_illegal {w : Byte} (h : w.extractLsb' 4 4 ≠ 0 ∨ w.extractLsb' 0 4 = 0xF) :
    ∃ r, decode w = .error r := by
  by_cases hrsv : w.extractLsb' 4 4 = 0
  · exact ⟨_, decode_of_opc_reserved hrsv (h.resolve_left (not_not_intro hrsv))⟩
  · exact ⟨_, decode_of_rsv_ne_zero hrsv⟩

theorem decode_encode (i : Instr) : decode (encode i) = .ok i := by cases i <;> rfl

theorem encode_of_decode {w : Byte} {i : Instr} (h : decode w = .ok i) : encode i = w := by
  have hlegal : ¬(w.extractLsb' 4 4 ≠ 0 ∨ w.extractLsb' 0 4 = 0xF) := fun hill => by
    obtain ⟨r, hr⟩ := decode_illegal hill
    simp [hr] at h
  obtain ⟨hrsv, hopc⟩ := not_or.mp hlegal
  obtain ⟨j, _, hdecode, hencode⟩ := decode_row (not_not.mp hrsv) hopc
  obtain rfl : j = i := Except.ok.inj (hdecode.symm.trans h)
  exact hencode

end Sys2Proof
end

section
/-! SUPPORT. The groups of a 40-bit value (R41): where each one lies, and the value they spell. -/

namespace Sys2Proof.Machine

@[simp] theorem split40_length (x : Acc) : (split40 x).length = 8 := by simp [split40]

theorem split40_getElem? (x : Acc) {i : Nat} (hi : i < 8) :
    (split40 x)[i]? = some (x.extractLsb' (5 * (7 - i)) 5) := by
  simp [split40, hi]

/-- The five bits from `k` up, by shift and mask (R41). -/
theorem extractGroup_eq_shift_mask (x : Acc) (k : Nat) :
    x.extractLsb' k 5 = BitVec.ofNat 5 (x.toNat >>> k &&& 0x1F) := by
  apply BitVec.eq_of_toNat_eq
  rw [BitVec.extractLsb'_toNat, BitVec.toNat_ofNat, Nat.and_two_pow_sub_one_eq_mod _ 5, Nat.mod_mod]

/-- Base-32 digits read as a number, the first one the most significant. -/
def ofGroups (gs : List Group) : Nat := gs.foldl (fun a g => 32 * a + g.toNat) 0

theorem ofGroups_concat (gs : List Group) (g : Group) : ofGroups (gs ++ [g]) = 32 * ofGroups gs + g.toNat := by
  simp [ofGroups]

/-- The first `n` groups spell the top `5 * n` bits: each further group shifts five more bits in. -/
theorem ofGroups_split40_take (x : Acc) {n : Nat} (hn : n ≤ 8) :
    ofGroups ((split40 x).take n) = x.toNat >>> (5 * (8 - n)) := by
  induction n with
  | zero => exact (Nat.shiftRight_eq_zero _ _ x.isLt).symm
  | succ n ih =>
    have hshift : 5 * (8 - n) = 5 * (7 - n) + 5 := by omega
    calc ofGroups ((split40 x).take (n + 1))
        = ofGroups ((split40 x).take n ++ [x.extractLsb' (5 * (7 - n)) 5]) := by
          rw [List.take_add_one, split40_getElem? x hn, Option.toList_some]
      _ = 32 * (x.toNat >>> (5 * (7 - n)) >>> 5) + x.toNat >>> (5 * (7 - n)) % 2 ^ 5 := by
          rw [ofGroups_concat, ih (by omega), BitVec.extractLsb'_toNat, hshift, Nat.shiftRight_add]
      _ = x.toNat >>> (5 * (7 - n)) := by
          rw [Nat.shiftRight_eq_div_pow _ 5]
          exact Nat.div_add_mod _ _
      _ = x.toNat >>> (5 * (8 - (n + 1))) := by congr 2; omega

theorem ofGroups_split40 (x : Acc) : ofGroups (split40 x) = x.toNat := by
  simpa [List.take_of_length_le] using ofGroups_split40_take x (Nat.le_refl 8)

end Sys2Proof.Machine
end

section
/-! The statements of 30_encoding.md: the command words and the groups of a 40-bit value. -/

namespace Sys2Proof.Machine

/-- Settles O32: each group by its own shift and mask, the value by reading the groups from the top. -/
theorem split40ListsTheGroupsMostSignificantFirst : Obligations.Split40ListsTheGroupsMostSignificantFirst := by
  unfold Obligations.Split40ListsTheGroupsMostSignificantFirst
  intro x
  refine ⟨split40_length x, fun i hi => ?_, ofGroups_split40 x⟩
  rw [split40_getElem? x hi, extractGroup_eq_shift_mask]

/-- Settles O1: the decoder undoes the encoder on every command, and a legal word is the word of its row. -/
theorem commandWordsDecodeAndEncode : Obligations.CommandWordsDecodeAndEncode := by
  unfold Obligations.CommandWordsDecodeAndEncode
  exact ⟨fun i _ => decode_encode i, fun _ _ => encode_of_decode⟩

/-- Settles O2: an illegal field is rejected, and two legal fields name a row of the command table. -/
theorem decoderRejectsExactlyIllegalWords : Obligations.DecoderRejectsExactlyIllegalWords := by
  unfold Obligations.DecoderRejectsExactlyIllegalWords
  refine fun w => ⟨decode_illegal, fun ⟨hrsv, hopc⟩ => ?_⟩
  obtain ⟨i, hrow, hdecode, _⟩ := decode_row hrsv hopc
  exact ⟨i, hrow, hdecode⟩

/-- Settles O3: the eight legal words are those the encoder gives, the two others have an illegal field. -/
theorem writtenOutWordsDecode : Obligations.WrittenOutWordsDecode := by
  unfold Obligations.WrittenOutWordsDecode
  exact ⟨decode_encode .clr, decode_encode .b32e, decode_encode .b32ds, decode_encode .rg85, decode_encode .rg58,
    decode_encode .pmembed, decode_encode .venc, decode_encode .vdec,
    decode_of_opc_reserved (by decide) (by decide), decode_of_rsv_ne_zero (by decide)⟩

end Sys2Proof.Machine
end

section
/-! SUPPORT. The alphabet units (R47 to R49): the two directions of the table, the case of a letter, and what folding to
lower or to upper case does to both. -/

namespace Sys2Proof.Machine

/-- The 32 characters are distinct (R47). -/
theorem alphabet_nodup : alphabet.Nodup := by decide

theorem valueToChar_injective {v v' : Group} (h : valueToChar v = valueToChar v') : v = v' :=
  BitVec.eq_of_toNat_eq (alphabet_nodup.getElem_inj_iff.1 h)

/-- `char_to_value` finds a value exactly by its character, the code folded first (R48). -/
theorem charToValue_eq_some_iff {ch : Byte} {v : Group} : charToValue ch = some v ↔ valueToChar v = toLower ch := by
  constructor
  · intro h
    obtain ⟨i, hfind, rfl⟩ := Option.map_eq_some_iff.1 h
    obtain ⟨hi, hchar, _⟩ := List.findIdx?_eq_some_iff_getElem.1 hfind
    have hi32 : i < 32 := hi
    simpa [valueToChar, Nat.mod_eq_of_lt hi32] using hchar
  · intro h
    have hfind : (alphabet.findIdx? fun a => a == toLower ch) = some v.toNat := by
      refine List.findIdx?_eq_some_iff_getElem.2 ⟨v.isLt, beq_iff_eq.2 h, fun j hj => ?_⟩
      have hv : v.toNat < alphabet.length := v.isLt
      rw [beq_iff_eq, ← h]
      exact fun heq => hj.ne (alphabet_nodup.getElem_inj_iff.1 heq)
    rw [charToValue, hfind, Option.map_some, BitVec.ofNat_toNat, BitVec.setWidth_eq]

theorem caseOf_eq_upper_iff {ch : Byte} : caseOf ch = some .upper ↔ 0x41 ≤ ch.toNat ∧ ch.toNat ≤ 0x5A := by
  simp only [caseOf, BitVec.le_def]
  split_ifs <;> simp_all

theorem caseOf_eq_lower_iff {ch : Byte} : caseOf ch = some .lower ↔ 0x61 ≤ ch.toNat ∧ ch.toNat ≤ 0x7A := by
  simp only [caseOf, BitVec.le_def]
  split_ifs with hupper hlower
  · simp only [BitVec.reduceToNat] at hupper
    simp; omega
  · simpa using hlower
  · simpa using hlower

/-- Folding is decided by the case of the letter. -/
theorem toLower_eq (ch : Byte) : toLower ch = if 0x41 ≤ ch.toNat ∧ ch.toNat ≤ 0x5A then ch + 0x20 else ch := rfl

/-- A character of the alphabet is no upper-case letter. -/
theorem caseOf_valueToChar (v : Group) : caseOf (valueToChar v) = none ∨ caseOf (valueToChar v) = some .lower := by
  revert v; decide

theorem toLower_valueToChar (v : Group) : toLower (valueToChar v) = valueToChar v := by
  revert v; decide

@[simp] theorem charToValue_valueToChar (v : Group) : charToValue (valueToChar v) = some v :=
  charToValue_eq_some_iff.2 (toLower_valueToChar v).symm

/-- A lower-case ASCII letter in upper case, every other code as it is: R89's upper-casing of one character. -/
def toUpper (ch : Byte) : Byte := if 0x61 ≤ ch ∧ ch ≤ 0x7A then ch - 0x20 else ch

theorem upperCased_eq_map (str : List Byte) : upperCased str = str.map toUpper := rfl

theorem toUpper_eq (ch : Byte) : toUpper ch = if 0x61 ≤ ch.toNat ∧ ch.toNat ≤ 0x7A then ch - 0x20 else ch := rfl

theorem toLower_toUpper (ch : Byte) : toLower (toUpper ch) = toLower ch := by
  rw [toUpper_eq, toLower_eq, toLower_eq]
  split_ifs <;> bv_omega

/-- The value of a character does not depend on its case. -/
@[simp] theorem charToValue_toUpper (ch : Byte) : charToValue (toUpper ch) = charToValue ch := by
  rw [charToValue, charToValue, toLower_toUpper]

theorem caseOf_toUpper (ch : Byte) : caseOf (toUpper ch) = none ∨ caseOf (toUpper ch) = some .upper := by
  cases hcase : caseOf (toUpper ch) with
  | none => exact .inl rfl
  | some k =>
    cases k with
    | upper => exact .inr rfl
    | lower =>
      have hrange := caseOf_eq_lower_iff.1 hcase
      rw [toUpper_eq] at hrange
      split_ifs at hrange <;> bv_omega

end Sys2Proof.Machine
end

section
/-! SUPPORT. The checks and the writes of the buffer commands B32ES and B32DS, on the list that is `SBV`. -/

namespace Sys2Proof.Machine

/-- No two letters of the list have different cases (R53). -/
def OneCase (xs : List Byte) : Prop := ∃ k, ∀ u ∈ xs, caseOf u = none ∨ caseOf u = some k

/-- The lowest index of an element that satisfies `p`, by the elements before it. -/
theorem findIdx?_eq_of_take {p : Byte → Bool} {xs : List Byte} {i : Nat} {v : Byte} (hv : xs[i]? = some v)
    (hp : p v = true) (hbefore : ∀ u ∈ xs.take i, p u = false) : xs.findIdx? p = some i := by
  obtain ⟨hi, rfl⟩ := List.getElem?_eq_some_iff.1 hv
  refine List.findIdx?_eq_some_iff_getElem.2 ⟨hi, hp, fun j hj => ?_⟩
  rw [hbefore _ (List.mem_take_iff_getElem.2 ⟨j, by omega, rfl⟩)]
  exact Bool.false_ne_true

theorem checkCells_error {kind : ErrorKind} {bad : Byte → Bool} {xs : List Byte} {i : Nat} {v : Byte}
    (hv : xs[i]? = some v) (hbad : bad v = true) (hbefore : ∀ u ∈ xs.take i, bad u = false) :
    checkCells kind bad xs = .error ⟨kind, indexInfo i⟩ := by
  rw [checkCells, findIdx?_eq_of_take hv hbad hbefore]

theorem checkCells_ok_iff {kind : ErrorKind} {bad : Byte → Bool} {xs : List Byte} :
    checkCells kind bad xs = .ok () ↔ ∀ x ∈ xs, bad x = false := by
  rcases checkCells_cases kind bad xs with ⟨hgood, hok⟩ | ⟨i, hi, hbad, _, herr⟩
  · exact iff_of_true hok hgood
  · exact iff_of_false (by simp [herr]) fun h => by simp [h _ (List.getElem_mem hi)] at hbad

/-- Where letters of case `first` come before the first letter of another case, the list mixes cases there. -/
theorem checkCase_error {xs : List Byte} {i : Nat} {ch : Byte} {first other : LetterCase} (hi : xs[i]? = some ch)
    (hch : caseOf ch = some other) (hne : other ≠ first) (hfirst : ∃ u ∈ xs.take i, caseOf u = some first)
    (hbefore : ∀ u ∈ xs.take i, caseOf u ≠ some other) : checkCase xs = .error ⟨.mixedCaseError, indexInfo i⟩ := by
  have hone : ∀ u ∈ xs.take i, ∀ k, caseOf u = some k → k = first := by
    intro u hu k hk
    have hkother : k ≠ other := fun h => hbefore u hu (h ▸ hk)
    revert hkother hne
    cases k <;> cases first <;> cases other <;> decide
  have hletter : xs.findSome? caseOf = some first := by
    obtain ⟨u, hu, hcase⟩ := hfirst
    have hsome : ((xs.take i).findSome? caseOf).isSome = true :=
      List.findSome?_isSome_iff.2 ⟨u, hu, by rw [hcase]; rfl⟩
    obtain ⟨k, hk⟩ := Option.isSome_iff_exists.1 hsome
    obtain ⟨w, hw, hwk⟩ := List.exists_of_findSome?_eq_some hk
    rw [← List.take_append_drop i xs, List.findSome?_append, hk, hone w hw k hwk]
    rfl
  have hindex : mixedCaseIndex xs = some i := by
    simp only [mixedCaseIndex, hletter]
    refine findIdx?_eq_of_take hi (by simp [hch, hne]) fun u hu => ?_
    cases hcase : caseOf u with
    | none => rfl
    | some k => simp [hone u hu k hcase]
  rw [checkCase, hindex]

/-- The case check passes exactly the lists of one case (R53). -/
theorem checkCase_ok_iff {xs : List Byte} : checkCase xs = .ok () ↔ OneCase xs := by
  cases hletter : xs.findSome? caseOf with
  | none =>
    have hnone : ∀ u ∈ xs, caseOf u = none := by simpa using hletter
    exact iff_of_true (by simp [checkCase, mixedCaseIndex, hletter]) ⟨.lower, fun u hu => .inl (hnone u hu)⟩
  | some first =>
    obtain ⟨w, hw, hwfirst⟩ := List.exists_of_findSome?_eq_some hletter
    cases hindex : xs.findIdx? fun ch => (caseOf ch).any fun k => k != first with
    | none =>
      refine iff_of_true (by simp [checkCase, mixedCaseIndex, hletter, hindex]) ⟨first, fun u hu => ?_⟩
      have hu' := List.findIdx?_eq_none_iff.1 hindex u hu
      cases hcase : caseOf u with
      | none => exact .inl rfl
      | some k => exact .inr (by simpa [hcase] using hu')
    | some i =>
      refine iff_of_false (by simp [checkCase, mixedCaseIndex, hletter, hindex]) fun ⟨k, hone⟩ => ?_
      obtain ⟨hi, hother, _⟩ := List.findIdx?_eq_some_iff_getElem.1 hindex
      obtain rfl : first = k := by simpa [hwfirst] using hone w hw
      rcases hone _ (List.getElem_mem hi) with hcase | hcase <;> simp [hcase] at hother

/-- The buffer operand is the list that is `SBV` (R11). -/
theorem bufferOperand_of_sbvIs {s : State} {xs : List Byte} (hw : s.sb.wf = true) (hs : s.sbvIs xs) :
    bufferOperand s = .ok xs := by
  rcases bufferOperand_cases s with ⟨_, hok⟩ | ⟨hover, _⟩
  · rw [hok, State.sbv_of_sbvIs hs]
  · exact absurd (State.slen_le_of_sbvIs hw hs) (by omega)

/-- `SLEN` above `SB_DEPTH` fails before any cell is read (R92). -/
theorem bufferOperand_overflow {s : State} (h : Config.sbDepth < s.slen.toNat) :
    bufferOperand s = .error ⟨.capacityExceeded, 0⟩ := by
  rcases bufferOperand_cases s with ⟨hle, _⟩ | ⟨_, herr⟩
  · omega
  · exact herr

/-- The groups operand checks the list that is `SBV` and takes its groups (R92). -/
theorem groupsOperand_of_sbvIs {s : State} {xs : List Byte} (hw : s.sb.wf = true) (hs : s.sbvIs xs) :
    groupsOperand s = (checkCells .invalidValue (fun b => !isGroup b) xs).map fun _ => xs.map toGroup := by
  simp only [groupsOperand, bufferOperand_of_sbvIs hw hs, bind, Except.bind]
  cases checkCells .invalidValue (fun b => !isGroup b) xs <;> rfl

theorem groupsOperand_overflow {s : State} (h : Config.sbDepth < s.slen.toNat) :
    groupsOperand s = .error ⟨.capacityExceeded, 0⟩ := by
  rw [groupsOperand, bufferOperand_overflow h]; rfl

theorem isGroup_setWidth (g : Group) : isGroup (g.setWidth 8) = true := by
  revert g; decide

theorem toGroup_setWidth (g : Group) : toGroup (g.setWidth 8) = g := by
  revert g; decide

@[simp] theorem groupCells_length (gs : List Group) : (groupCells gs).length = gs.length := List.length_map _

theorem map_toGroup_groupCells (gs : List Group) : (groupCells gs).map toGroup = gs := by
  simp [groupCells, Function.comp_def, toGroup_setWidth]

/-- Cells that hold groups are taken as these groups. -/
theorem groupsOperand_of_groupCells {s : State} {gs : List Group} (hw : s.sb.wf = true)
    (hs : s.sbvIs (groupCells gs)) : groupsOperand s = .ok gs := by
  have hcheck : checkCells .invalidValue (fun b => !isGroup b) (groupCells gs) = .ok () :=
    checkCells_ok_iff.2 (by simp [groupCells, isGroup_setWidth])
  rw [groupsOperand_of_sbvIs hw hs, hcheck, map_toGroup_groupCells]
  rfl

/-- The state in which `ys` has replaced the first cells and the status is clear. -/
def State.replaced (s : State) (ys : List Byte) : State := (s.withCells 0 ys).withStatus none 0

@[simp] theorem State.replaced_ecode (s : State) (ys : List Byte) : (s.replaced ys).ecode = none := rfl
@[simp] theorem State.replaced_slen (s : State) (ys : List Byte) : (s.replaced ys).slen = s.slen := rfl
@[simp] theorem State.replaced_sb (s : State) (ys : List Byte) : (s.replaced ys).sb = s.sb.writeFrom 0 ys := rfl

/-- A list as long as `SBV` replaces exactly its cells. -/
theorem State.replaced_overwritten {s : State} {xs ys : List Byte} (hw : s.sb.wf = true) (hs : s.sbvIs xs)
    (hlen : ys.length = xs.length) : s.sb.Overwritten (s.replaced ys).sb 0 ys := by
  have hle := State.slen_le_of_sbvIs hw hs
  exact Memory.writeFrom_overwritten hw 0 ys (by rw [Nat.zero_add, hlen, hs.1]; exact hle)

/-- A list as long as `SBV` that replaces it is `SBV` afterwards. -/
theorem State.replaced_sbvIs {s : State} {xs ys : List Byte} (hw : s.sb.wf = true) (hs : s.sbvIs xs)
    (hlen : ys.length = xs.length) : (s.replaced ys).sbvIs ys := by
  obtain ⟨_, hread⟩ := State.replaced_overwritten hw hs hlen
  refine ⟨hlen.trans hs.1, fun j hj => ?_⟩
  rw [hread j, if_pos ⟨Nat.zero_le j, by omega⟩, Nat.sub_zero]

/-- B32ES encodes the groups it takes (R51). -/
theorem exec_b32es (s : State) :
    exec .b32es s = complete s ((groupsOperand s).map fun gs => s.withCells 0 (gs.map valueToChar)) := by
  simp only [exec, execB32es]
  cases groupsOperand s <;> rfl

/-- B32ES on groups writes their characters (R51). -/
theorem exec_b32es_of_groupCells {s : State} {gs : List Group} (hw : s.sb.wf = true) (hs : s.sbvIs (groupCells gs)) :
    exec .b32es s = .next (s.replaced (gs.map valueToChar)) := by
  rw [exec_b32es, groupsOperand_of_groupCells hw hs]; rfl

/-- Where every character has a value, the values are as many and in the same order. -/
theorem map_eq_map_some_filterMap {xs : List Byte} (h : ∀ ch ∈ xs, (charToValue ch).isNone = false) :
    xs.map charToValue = (xs.filterMap charToValue).map some := by
  induction xs with
  | nil => rfl
  | cons ch xs ih =>
    obtain ⟨hch, hxs⟩ := List.forall_mem_cons.1 h
    cases hv : charToValue ch with
    | none => simp [hv] at hch
    | some v => simp [hv, ih hxs]

/-- B32DS on the list that is `SBV`: its two checks, then the values (R53). -/
theorem exec_b32ds_of_sbvIs {s : State} {xs : List Byte} (hw : s.sb.wf = true) (hs : s.sbvIs xs) :
    exec .b32ds s = complete s (do
      checkCase xs
      checkCells .invalidCharacter (fun ch => (charToValue ch).isNone) xs
      return s.withCells 0 (groupCells (xs.filterMap charToValue))) := by
  simp only [exec, execB32ds, bufferOperand_of_sbvIs hw hs]; rfl

/-- B32DS on characters of one case that all have a value writes the values (R53). -/
theorem exec_b32ds_of_values {s : State} {xs : List Byte} {gs : List Group} (hw : s.sb.wf = true) (hs : s.sbvIs xs)
    (hcase : OneCase xs) (hvals : xs.map charToValue = gs.map some) :
    exec .b32ds s = .next (s.replaced (groupCells gs)) := by
  have hchars : checkCells .invalidCharacter (fun ch => (charToValue ch).isNone) xs = .ok () := by
    refine checkCells_ok_iff.2 fun ch hch => ?_
    have hmem : charToValue ch ∈ gs.map some := hvals ▸ List.mem_map_of_mem hch
    obtain ⟨v, _, hv⟩ := List.mem_map.1 hmem
    rw [← hv]; rfl
  have hgs : xs.filterMap charToValue = gs := by
    simpa [List.filterMap_map, Function.comp_def] using congrArg (List.filterMap id) hvals
  rw [exec_b32ds_of_sbvIs hw hs, checkCase_ok_iff.2 hcase, hchars, hgs]
  rfl

/-- Where B32DS leaves no error, the characters were of one case and all had a value, and the values were written. -/
theorem exec_b32ds_succeeds {s t : State} {xs : List Byte} (hw : s.sb.wf = true) (hs : s.sbvIs xs)
    (h : exec .b32ds s = .next t) (hok : t.ecode = none) :
    ∃ gs, xs.map charToValue = gs.map some ∧ t = s.replaced (groupCells gs) := by
  rw [exec_b32ds_of_sbvIs hw hs] at h
  rcases complete_cases h with ⟨r, _, rfl⟩ | ⟨u, hu, rfl⟩
  · cases hok
  · cases hcase : checkCase xs with
    | error r => simp [hcase, bind, Except.bind] at hu
    | ok _ =>
      cases hchars : checkCells .invalidCharacter (fun ch => (charToValue ch).isNone) xs with
      | error r => simp [hcase, hchars, bind, Except.bind] at hu
      | ok _ =>
        obtain rfl : s.withCells 0 (groupCells (xs.filterMap charToValue)) = u := by
          simpa [hcase, hchars, bind, Except.bind, pure, Except.pure] using hu
        exact ⟨_, map_eq_map_some_filterMap (checkCells_ok_iff.1 hchars), rfl⟩

end Sys2Proof.Machine
end

section
/-! The statements of 40_base32.md: the alphabet units and the four commands that use them. -/

namespace Sys2Proof.Machine

/-- Settles O23: the character of a value has that value, and a letter's case changes neither its value nor, over the
whole body, the check that there is one case only. -/
theorem base32BufferRoundTrip : Obligations.Base32BufferRoundTrip := by
  unfold Obligations.Base32BufferRoundTrip
  constructor
  · intro s gs hw hs
    have hlen : (gs.map valueToChar).length = (groupCells gs).length := by simp
    have hsbv := State.replaced_sbvIs hw hs hlen
    have hwf : (s.replaced (gs.map valueToChar)).sb.wf = true := by simpa using hw
    have hvals : (gs.map valueToChar).map charToValue = gs.map some := by simp
    have hcase : OneCase (gs.map valueToChar) := ⟨.lower, by simpa using fun v _ => caseOf_valueToChar v⟩
    exact ⟨_, _, exec_b32es_of_groupCells hw hs, rfl, exec_b32ds_of_values hwf hsbv hcase hvals, rfl,
      State.replaced_sbvIs hwf hsbv hlen.symm⟩
  · intro s s' t xs hw hw' hs hs' h hok
    obtain ⟨gs, hvals, rfl⟩ := exec_b32ds_succeeds hw hs h hok
    have hlen : (groupCells gs).length = xs.length := by simpa using (congrArg List.length hvals).symm
    have hupper : s'.sbvIs (xs.map toUpper) := hs'
    have hcase : OneCase (xs.map toUpper) := ⟨.upper, by simpa using fun ch _ => caseOf_toUpper ch⟩
    have hvals' : (xs.map toUpper).map charToValue = gs.map some := by simpa [Function.comp_def] using hvals
    exact ⟨_, gs, exec_b32ds_of_values hw' hupper hcase hvals', rfl, State.replaced_sbvIs hw hs hlen,
      State.replaced_sbvIs hw' hupper (by simpa using hlen)⟩

/-- Settles O21: the groups operand makes the three answers, in the order of its checks. -/
theorem b32esEncodesTheBuffer : Obligations.B32esEncodesTheBuffer := by
  unfold Obligations.B32esEncodesTheBuffer
  refine ⟨decode_encode .b32es, fun s hover => ?capacity, fun s xs i v hw hs hv hbad hbefore => ?invalid,
    fun s gs hw hs => ?encodes⟩
  case capacity => rw [exec_b32es, groupsOperand_overflow hover]; rfl
  case invalid =>
    have hcheck : checkCells .invalidValue (fun b => !isGroup b) xs = .error ⟨.invalidValue, indexInfo i⟩ :=
      checkCells_error hv (by simpa [isGroup] using hbad) (by simpa [isGroup] using hbefore)
    rw [exec_b32es, groupsOperand_of_sbvIs hw hs, hcheck]; rfl
  case encodes =>
    exact ⟨_, State.replaced_overwritten hw hs (by simp), exec_b32es_of_groupCells hw hs⟩

/-- Settles O22: the capacity check, the case check and the alphabet check raise in this order; otherwise the values
are written. -/
theorem b32dsDecodesTheBuffer : Obligations.B32dsDecodesTheBuffer := by
  unfold Obligations.B32dsDecodesTheBuffer
  refine ⟨decode_encode .b32ds, fun s hover => ?capacity,
    fun s xs i ch first other hw hs hi hch hne hfirst hbefore => ?mixed,
    fun s xs i ch k hw hs hone hi hch hbefore => ?invalid, fun s xs gs k hw hs hone hvals => ?decodes⟩
  case capacity => simp only [exec, execB32ds, bufferOperand_overflow hover]; rfl
  case mixed => rw [exec_b32ds_of_sbvIs hw hs, checkCase_error hi hch hne hfirst hbefore]; rfl
  case invalid =>
    have hchars : checkCells .invalidCharacter (fun ch => (charToValue ch).isNone) xs =
        .error ⟨.invalidCharacter, indexInfo i⟩ :=
      checkCells_error hi (by simp [hch]) (by simpa [Option.isSome_iff_ne_none] using hbefore)
    rw [exec_b32ds_of_sbvIs hw hs, checkCase_ok_iff.2 ⟨k, hone⟩, hchars]; rfl
  case decodes =>
    have hlen : (groupCells gs).length = xs.length := by simpa using (congrArg List.length hvals).symm
    exact ⟨_, State.replaced_overwritten hw hs hlen, exec_b32ds_of_values hw hs ⟨k, hone⟩ hvals⟩

/-- Settles O17: the characters one by one, and injectivity because the alphabet lists none twice. -/
theorem valueToCharIsTheAlphabetString : Obligations.ValueToCharIsTheAlphabetString := by
  unfold Obligations.ValueToCharIsTheAlphabetString
  exact ⟨by decide, fun _ _ => valueToChar_injective⟩

/-- Settles O18: a value is found by its character; the number of invalid codes is counted. -/
theorem charToValueFoldsAndCaseOfSeesLetters : Obligations.CharToValueFoldsAndCaseOfSeesLetters := by
  unfold Obligations.CharToValueFoldsAndCaseOfSeesLetters
  exact ⟨fun ch _ => toLower_eq ch ▸ charToValue_eq_some_iff, by decide +kernel,
    fun _ => ⟨caseOf_eq_upper_iff, caseOf_eq_lower_iff⟩⟩

/-- Settles O19: the scalar operand passes up to 31 and raises above. -/
theorem b32eEncodesOneValue : Obligations.B32eEncodesOneValue := by
  unfold Obligations.B32eEncodesOneValue
  refine ⟨decode_encode .b32e, fun s hle => ?_, fun s hgt => ?_⟩
  · rw [BitVec.ofNat_toNat]
    simp only [exec, execB32e, scalarGroup_ok hle]; rfl
  · simp only [exec, execB32e, scalarGroup_error hgt]; rfl

/-- Settles O20: the value, or the error where there is none. -/
theorem b32dDecodesOneCharacter : Obligations.B32dDecodesOneCharacter := by
  unfold Obligations.B32dDecodesOneCharacter
  refine ⟨decode_encode .b32d, fun s v hv => ?_, fun s hnone => ?_⟩
  · rw [BitVec.ofNat_toNat]
    simp only [exec, execB32d, hv]; rfl
  · simp only [exec, execB32d, hnone]; rfl

end Sys2Proof.Machine
end

section
/-! SUPPORT. The binary digits of a number, and the bit string of a list of values: how each is put together, and that
a bit string has one division into groups and a leftover (R55). -/

namespace Sys2Proof.Machine

@[simp] theorem bitsMsb_length (w x : Nat) : (bitsMsb w x).length = w := by simp [bitsMsb]

theorem bitsMsb_congr {w x y : Nat} (h : ∀ i < w, x.testBit i = y.testBit i) : bitsMsb w x = bitsMsb w y :=
  List.map_congr_left fun k hk => h _ (by have := List.mem_range.1 hk; omega)

theorem bitsMsb_zero_right (w : Nat) : bitsMsb w 0 = List.replicate w false := by
  simp [bitsMsb, List.map_const']

/-- The upper digits of a number are those of the number shifted down. -/
theorem bitsMsb_add (a b x : Nat) : bitsMsb (a + b) x = bitsMsb a (x >>> b) ++ bitsMsb b x := by
  rw [bitsMsb, List.range_add, List.map_append, List.map_map]
  congr 1
  · refine List.map_congr_left fun k hk => ?_
    have := List.mem_range.1 hk
    rw [Nat.testBit_shiftRight]
    congr 1; omega
  · refine List.map_congr_left fun k _ => ?_
    rw [Function.comp_apply]
    congr 1; omega

/-- A value of `b` digits below a number shifted up by `b` spells the digits of the two. -/
theorem bitsMsb_shiftLeft_or (a acc : Nat) {b x : Nat} (hx : x < 2 ^ b) :
    bitsMsb (a + b) (acc <<< b ||| x) = bitsMsb a acc ++ bitsMsb b x := by
  rw [bitsMsb_add]
  congr 1
  · refine bitsMsb_congr fun i _ => ?_
    have hhigh : x.testBit (b + i) = false :=
      Nat.testBit_eq_false_of_lt (hx.trans_le (Nat.pow_le_pow_right Nat.two_pos (Nat.le_add_right b i)))
    simp [hhigh]
  · refine bitsMsb_congr fun i hi => ?_
    simp [Nat.not_le.2 hi]

/-- Zero digits below a number are a shift. -/
theorem bitsMsb_shiftLeft (a b acc : Nat) :
    bitsMsb (a + b) (acc <<< b) = bitsMsb a acc ++ List.replicate b false := by
  rw [← bitsMsb_zero_right, ← bitsMsb_shiftLeft_or a acc (Nat.two_pow_pos b), Nat.or_zero]

theorem ofBitsMsb_concat (bs : List Bool) (b : Bool) : ofBitsMsb (bs ++ [b]) = 2 * ofBitsMsb bs + b.toNat := by
  simp [ofBitsMsb]

theorem bitsMsb_one (x : Nat) : bitsMsb 1 x = [x.testBit 0] := rfl

/-- The last digits of a number spell its remainder. -/
theorem ofBitsMsb_bitsMsb (w x : Nat) : ofBitsMsb (bitsMsb w x) = x % 2 ^ w := by
  induction w generalizing x with
  | zero => rw [Nat.pow_zero, Nat.mod_one]; rfl
  | succ w ih =>
    rw [bitsMsb_add, bitsMsb_one, ofBitsMsb_concat, ih, Nat.toNat_testBit, Nat.pow_zero, Nat.div_one,
      Nat.pow_succ', Nat.mod_mul, Nat.shiftRight_one, Nat.add_comm]

/-- A digit string is the digits of the number it spells. -/
theorem bitsMsb_ofBitsMsb (bs : List Bool) : bitsMsb bs.length (ofBitsMsb bs) = bs := by
  induction bs using List.reverseRecOn with
  | nil => rfl
  | append_singleton bs b ih =>
    have hhigh : (2 * ofBitsMsb bs + b.toNat) >>> 1 = ofBitsMsb bs := by
      rw [Nat.shiftRight_one]; cases b <;> simp; omega
    have hlow : (2 * ofBitsMsb bs + b.toNat).testBit 0 = b := by
      cases b <;> simp
    rw [List.length_append, List.length_singleton, ofBitsMsb_concat, bitsMsb_add, hhigh, ih, bitsMsb_one, hlow]

theorem ofBitsMsb_lt (bs : List Bool) : ofBitsMsb bs < 2 ^ bs.length := by
  rw [← bitsMsb_ofBitsMsb bs, ofBitsMsb_bitsMsb, bitsMsb_length]
  exact Nat.mod_lt _ (Nat.two_pow_pos _)

/-- The last digits of a number are zeros exactly if its remainder is 0. -/
theorem bitsMsb_eq_zeros_iff {w x : Nat} : bitsMsb w x = List.replicate w false ↔ x % 2 ^ w = 0 := by
  rw [← bitsMsb_zero_right, ← ofBitsMsb_bitsMsb]
  constructor
  · intro h
    rw [h, ofBitsMsb_bitsMsb, Nat.zero_mod]
  · intro h
    rw [← bitsMsb_ofBitsMsb (bitsMsb w x), h, bitsMsb_length]

/-- A bit string without a bit that is 1 is a run of zeros. -/
theorem any_id_eq_false_iff {bs : List Bool} : bs.any id = false ↔ bs = List.replicate bs.length false := by
  simp [List.eq_replicate_iff]

theorem bitStream_cons (w x : Nat) (xs : List Nat) : bitStream w (x :: xs) = bitsMsb w x ++ bitStream w xs :=
  List.flatMap_cons

theorem bitStream_concat (w x : Nat) (xs : List Nat) : bitStream w (xs ++ [x]) = bitStream w xs ++ bitsMsb w x := by
  simp [bitStream]

/-- Slicing a stream of values gives these values, whatever follows them. -/
theorem slices_bitStream_append {w : Nat} {xs : List Nat} (hxs : ∀ x ∈ xs, x < 2 ^ w) (rest : List Bool) :
    slices w xs.length (bitStream w xs ++ rest) = xs := by
  induction xs with
  | nil => rfl
  | cons x xs ih =>
    obtain ⟨hx, hxs⟩ := List.forall_mem_cons.1 hxs
    rw [bitStream_cons, List.length_cons, slices, List.append_assoc, List.take_left' (bitsMsb_length w x),
      List.drop_left' (bitsMsb_length w x), ofBitsMsb_bitsMsb, Nat.mod_eq_of_lt hx, ih hxs]

/-- The stream of the slices is the stream that was sliced. -/
theorem bitStream_slices {w q : Nat} {bs : List Bool} (h : q * w ≤ bs.length) :
    bitStream w (slices w q bs) = bs.take (q * w) := by
  induction q generalizing bs with
  | zero => simp [slices, bitStream]
  | succ q ih =>
    rw [Nat.succ_mul] at h
    have hlen : (bs.take w).length = w := by rw [List.length_take]; omega
    have hfirst : bitsMsb w (ofBitsMsb (bs.take w)) = bs.take w := by
      simpa only [hlen] using bitsMsb_ofBitsMsb (bs.take w)
    rw [slices, bitStream_cons, hfirst, ih (by rw [List.length_drop]; omega), Nat.succ_mul, Nat.add_comm, List.take_add]

theorem slices_lt {w q : Nat} {bs : List Bool} {y : Nat} (h : y ∈ slices w q bs) : y < 2 ^ w := by
  induction q generalizing bs with
  | zero => cases h
  | succ q ih =>
    rcases List.mem_cons.1 h with rfl | h
    · exact (ofBitsMsb_lt _).trans_le (Nat.pow_le_pow_right Nat.two_pos (List.length_take_le w bs))
    · exact ih h

section
variable {wi wo : Nat} {xs ys : List Nat} {rest : List Bool}

theorem wholeGroups_length : (wholeGroups wi wo xs).length = xs.length * wi / wo := by
  rw [wholeGroups, slices_length, bitStream_length]

theorem leftover_length : (leftover wi wo xs).length = xs.length * wi % wo := by
  rw [leftover, List.length_drop, bitStream_length, Nat.mod_eq_sub_div_mul]

theorem wholeGroups_lt : ∀ y ∈ wholeGroups wi wo xs, y < 2 ^ wo := fun _ => slices_lt

/-- The stream is its whole groups and its leftover (R55). -/
theorem bitStream_eq_wholeGroups_append_leftover (wi wo : Nat) (xs : List Nat) :
    bitStream wi xs = bitStream wo (wholeGroups wi wo xs) ++ leftover wi wo xs := by
  rw [wholeGroups, leftover, bitStream_slices (Nat.div_mul_le_self _ _), List.take_append_drop]

/-- There is one division of a stream into groups and a leftover shorter than a group. -/
theorem wholeGroups_leftover_unique (hstream : bitStream wi xs = bitStream wo ys ++ rest) (hrest : rest.length < wo)
    (hys : ∀ y ∈ ys, y < 2 ^ wo) : wholeGroups wi wo xs = ys ∧ leftover wi wo xs = rest := by
  have hq : (bitStream wi xs).length / wo = ys.length := by
    rw [hstream, List.length_append, bitStream_length, Nat.add_comm,
      Nat.add_mul_div_right _ _ (Nat.zero_lt_of_lt hrest), Nat.div_eq_of_lt hrest, Nat.zero_add]
  rw [wholeGroups, leftover, hq, hstream, slices_bitStream_append hys, List.drop_left' (bitStream_length wo ys)]
  exact ⟨rfl, rfl⟩

/-- Values of one width are known by their stream. -/
theorem bitStream_injective (hw : 0 < wi) (hxs : ∀ x ∈ xs, x < 2 ^ wi) (hys : ∀ y ∈ ys, y < 2 ^ wi)
    (h : bitStream wi xs = bitStream wi ys) : xs = ys := by
  obtain ⟨hx, _⟩ := wholeGroups_leftover_unique (rest := []) (List.append_nil (bitStream wi xs)).symm hw hxs
  obtain ⟨hy, _⟩ := wholeGroups_leftover_unique (rest := []) (h.trans (List.append_nil _).symm) hw hys
  exact hx.symm.trans hy

end

end Sys2Proof.Machine
end

section
/-! SUPPORT. The two modes of `regroup` (R55): one inverts the other, because a list is padded to groups in one way. -/

namespace Sys2Proof.Machine

section
variable {wi wo : Nat} {xs ys : List Nat}

/-- The leftover completed with zero bits to a group (R55). -/
def paddedLeftover (wi wo : Nat) (xs : List Nat) : List Bool :=
  leftover wi wo xs ++ List.replicate (wo - (leftover wi wo xs).length) false

theorem paddedLeftover_length (hwo : 0 < wo) : (paddedLeftover wi wo xs).length = wo := by
  have hlt : (leftover wi wo xs).length < wo := leftover_length ▸ Nat.mod_lt _ hwo
  rw [paddedLeftover, List.length_append, List.length_replicate, Nat.add_sub_cancel' hlt.le]

theorem regroupPadded_of_no_leftover (h : (leftover wi wo xs).length = 0) :
    regroupPadded xs wi wo = wholeGroups wi wo xs := if_pos h

theorem regroupPadded_of_leftover (h : (leftover wi wo xs).length ≠ 0) :
    regroupPadded xs wi wo = wholeGroups wi wo xs ++ [ofBitsMsb (paddedLeftover wi wo xs)] := if_neg h

/-- What padding adds to the stream: fewer zero bits than a group has (R55). -/
theorem bitStream_regroupPadded (hwo : 0 < wo) :
    ∃ k < wo, bitStream wo (regroupPadded xs wi wo) = bitStream wi xs ++ List.replicate k false := by
  have hstream := bitStream_eq_wholeGroups_append_leftover wi wo xs
  by_cases h0 : (leftover wi wo xs).length = 0
  · refine ⟨0, hwo, ?_⟩
    rw [regroupPadded_of_no_leftover h0, hstream, List.length_eq_zero_iff.1 h0]
    simp
  · have hlast : bitsMsb wo (ofBitsMsb (paddedLeftover wi wo xs)) = paddedLeftover wi wo xs := by
      simpa only [paddedLeftover_length hwo] using bitsMsb_ofBitsMsb (paddedLeftover wi wo xs)
    refine ⟨wo - (leftover wi wo xs).length, by omega, ?_⟩
    rw [regroupPadded_of_leftover h0, bitStream_concat, hlast, paddedLeftover, hstream, List.append_assoc]

theorem regroupPadded_lt (hwo : 0 < wo) : ∀ y ∈ regroupPadded xs wi wo, y < 2 ^ wo := by
  by_cases h0 : (leftover wi wo xs).length = 0
  · rw [regroupPadded_of_no_leftover h0]
    exact wholeGroups_lt
  · rw [regroupPadded_of_leftover h0]
    refine List.forall_mem_append.2 ⟨wholeGroups_lt, List.forall_mem_singleton.2 ?_⟩
    simpa only [paddedLeftover_length hwo] using ofBitsMsb_lt (paddedLeftover wi wo xs)

/-- Two multiples of `w` less than `w` above the same number are the same. -/
theorem eq_of_mul_eq_add {a b w n j k : Nat} (ha : a * w = n + j) (hb : b * w = n + k) (hj : j < w) (hk : k < w) :
    j = k := by
  have hab : a < b + 1 := Nat.lt_of_mul_lt_mul_right (a := w) (by rw [Nat.succ_mul]; omega)
  have hba : b < a + 1 := Nat.lt_of_mul_lt_mul_right (a := w) (by rw [Nat.succ_mul]; omega)
  obtain rfl : a = b := by omega
  omega

/-- There is one way to complete a stream to groups with fewer zero bits than a group has. -/
theorem regroupPadded_unique {k : Nat} (hk : k < wo) (hys : ∀ y ∈ ys, y < 2 ^ wo)
    (hstream : bitStream wo ys = bitStream wi xs ++ List.replicate k false) : regroupPadded xs wi wo = ys := by
  have hwo : 0 < wo := Nat.zero_lt_of_lt hk
  obtain ⟨j, hj, hpadded⟩ := bitStream_regroupPadded (wi := wi) (xs := xs) hwo
  have hjk : j = k := by
    have hlen := congrArg List.length hpadded
    have hlen' := congrArg List.length hstream
    rw [List.length_append, List.length_replicate, bitStream_length] at hlen hlen'
    exact eq_of_mul_eq_add hlen hlen' hj hk
  exact bitStream_injective hwo (regroupPadded_lt hwo) hys (by rw [hpadded, hstream, hjk])

/-- `regroup` without padding gives the whole groups, where the leftover is short and zero (R55, R60). -/
theorem regroupExact_eq_some_iff : regroupExact xs wi wo = some ys ↔
    wholeGroups wi wo xs = ys ∧ (leftover wi wo xs).length < wi ∧
      leftover wi wo xs = List.replicate (leftover wi wo xs).length false := by
  rw [← any_id_eq_false_iff]
  by_cases h : wi ≤ (leftover wi wo xs).length ∨ (leftover wi wo xs).any id
  · rw [regroupExact, if_pos h]
    refine iff_of_false (by simp) fun ⟨_, hlt, hzero⟩ => ?_
    rcases h with h | h
    · omega
    · exact Bool.false_ne_true (hzero.symm.trans h)
  · rw [regroupExact, if_neg h, Option.some_inj]
    obtain ⟨hlt, hzero⟩ := not_or.1 h
    exact (and_iff_left ⟨Nat.lt_of_not_le hlt, Bool.eq_false_of_not_eq_true hzero⟩).symm

/-- A leftover of `wi` bits or more is refused, whatever they are (R60). -/
theorem regroupExact_eq_none_of_long (h : wi ≤ (leftover wi wo xs).length) : regroupExact xs wi wo = none :=
  if_pos (.inl h)

/-- Towards the wider width `regroup` without padding undoes `regroup` with padding, and gives nothing else (R59). -/
theorem regroupExact_eq_some_iff_regroupPadded (hwi : 0 < wi) (hle : wi ≤ wo) (hxs : ∀ x ∈ xs, x < 2 ^ wi) :
    regroupExact xs wi wo = some ys ↔ (∀ y ∈ ys, y < 2 ^ wo) ∧ regroupPadded ys wo wi = xs := by
  rw [regroupExact_eq_some_iff]
  constructor
  · rintro ⟨rfl, hlt, hzero⟩
    have hstream := bitStream_eq_wholeGroups_append_leftover wi wo xs
    rw [hzero] at hstream
    exact ⟨wholeGroups_lt, regroupPadded_unique hlt hxs hstream⟩
  · rintro ⟨hys, rfl⟩
    obtain ⟨k, hk, hstream⟩ := bitStream_regroupPadded (wi := wo) (xs := ys) hwi
    obtain ⟨hwhole, hleft⟩ := wholeGroups_leftover_unique hstream (by rw [List.length_replicate]; omega) hys
    rw [hwhole, hleft, List.length_replicate]
    exact ⟨rfl, hk, rfl⟩

end

end Sys2Proof.Machine
end

section
/-! SUPPORT. R55's algorithm: what its two loops keep. -/

namespace Sys2Proof.Machine

/-- Where R55's algorithm stands after the stream `bs`: `out` holds its groups, and the last `nb` digits of `acc` are
what follows them. -/
structure Emitted (wo acc nb : Nat) (out : List Nat) (bs : List Bool) : Prop where
  stream : bs = bitStream wo out ++ bitsMsb nb acc
  groups : ∀ y ∈ out, y < 2 ^ wo

theorem bitsMsb_mod (w x : Nat) : bitsMsb w (x % 2 ^ w) = bitsMsb w x :=
  bitsMsb_congr fun i hi => by simp [Nat.testBit_mod_two_pow, hi]

/-- A pass of the inner loop emits the next group. -/
theorem Emitted.emit {wo acc nb : Nat} {out : List Nat} {bs : List Bool} (h : Emitted wo acc nb out bs)
    (hle : wo ≤ nb) : Emitted wo acc (nb - wo) (out ++ [(acc >>> (nb - wo)) &&& (2 ^ wo - 1)]) bs where
  stream := by
    rw [bitStream_concat, Nat.and_two_pow_sub_one_eq_mod, bitsMsb_mod, List.append_assoc, ← bitsMsb_add,
      Nat.add_sub_cancel' hle, h.stream]
  groups := by
    refine List.forall_mem_append.2 ⟨h.groups, List.forall_mem_singleton.2 ?_⟩
    rw [Nat.and_two_pow_sub_one_eq_mod]
    exact Nat.mod_lt _ (Nat.two_pow_pos wo)

/-- The inner loop leaves less than a group. -/
theorem emitGroups_emitted {wo fuel acc nb : Nat} {out : List Nat} {bs : List Bool} (hwo : 0 < wo) (hfuel : nb ≤ fuel)
    (h : Emitted wo acc nb out bs) :
    ∃ nb' out', emitGroups wo fuel acc nb out = (nb', out') ∧ nb' < wo ∧ Emitted wo acc nb' out' bs := by
  induction fuel generalizing nb out with
  | zero => exact ⟨nb, out, rfl, by omega, h⟩
  | succ fuel ih =>
    by_cases hle : wo ≤ nb
    · rw [emitGroups, if_pos hle]
      exact ih (by omega) (h.emit hle)
    · rw [emitGroups, if_neg hle]
      exact ⟨nb, out, rfl, by omega, h⟩

/-- A symbol shifted into `acc` continues the stream. -/
theorem Emitted.absorb {wi wo acc nb x : Nat} {out : List Nat} {bs : List Bool} (h : Emitted wo acc nb out bs)
    (hx : x < 2 ^ wi) : Emitted wo (acc <<< wi ||| x) (nb + wi) out (bs ++ bitsMsb wi x) where
  stream := by rw [bitsMsb_shiftLeft_or nb acc hx, h.stream, List.append_assoc]
  groups := h.groups

/-- The bits already emitted may be dropped from `acc`. -/
theorem Emitted.mask {wo acc nb : Nat} {out : List Nat} {bs : List Bool} (h : Emitted wo acc nb out bs) :
    Emitted wo (acc &&& (2 ^ nb - 1)) nb out bs where
  stream := by rw [Nat.and_two_pow_sub_one_eq_mod, bitsMsb_mod, h.stream]
  groups := h.groups

/-- The outer loop continues the stream by its symbols; it leaves less than a group, and no other bit in `acc`. -/
theorem absorbSymbols_emitted {wi wo acc nb : Nat} {xs out : List Nat} {bs : List Bool} (hwo : 0 < wo)
    (hxs : ∀ x ∈ xs, x < 2 ^ wi) (hnb : nb < wo) (hacc : acc < 2 ^ nb) (h : Emitted wo acc nb out bs) :
    ∃ acc' nb' out', absorbSymbols wi wo xs acc nb out = (acc', nb', out') ∧ nb' < wo ∧ acc' < 2 ^ nb' ∧
      Emitted wo acc' nb' out' (bs ++ bitStream wi xs) := by
  induction xs generalizing acc nb out bs with
  | nil => exact ⟨acc, nb, out, rfl, hnb, hacc, (List.append_nil bs).symm ▸ h⟩
  | cons x xs ih =>
    obtain ⟨hx, hxs⟩ := List.forall_mem_cons.1 hxs
    obtain ⟨nb', out', hemit, hnb', h'⟩ := emitGroups_emitted hwo (Nat.le_refl (nb + wi)) (h.absorb hx)
    have hmask : (acc <<< wi ||| x) &&& (2 ^ nb' - 1) < 2 ^ nb' := by
      rw [Nat.and_two_pow_sub_one_eq_mod]; exact Nat.mod_lt _ (Nat.two_pow_pos nb')
    simp only [absorbSymbols, hemit, bitStream_cons, ← List.append_assoc]
    exact ih hxs hnb' hmask h'.mask

/-- After all symbols: `out` holds the whole groups, and `acc` and `nb` the leftover (R55). -/
theorem absorbSymbols_eq {wi wo : Nat} {xs : List Nat} (hwo : 0 < wo) (hxs : ∀ x ∈ xs, x < 2 ^ wi) :
    ∃ acc nb, absorbSymbols wi wo xs 0 0 [] = (acc, nb, wholeGroups wi wo xs) ∧ nb < wo ∧ acc < 2 ^ nb ∧
      leftover wi wo xs = bitsMsb nb acc := by
  have hstart : Emitted wo 0 0 [] [] := ⟨rfl, fun _ h => absurd h List.not_mem_nil⟩
  obtain ⟨acc, nb, out, hloop, hnb, hacc, h⟩ := absorbSymbols_emitted hwo hxs hwo Nat.one_pos hstart
  obtain ⟨rfl, hleft⟩ := wholeGroups_leftover_unique h.stream (by rwa [bitsMsb_length]) h.groups
  exact ⟨acc, nb, hloop, hnb, hacc, hleft⟩

end Sys2Proof.Machine
end

section
/-! SUPPORT. RG85 and RG58 on the list that is `SBV`: bytes and their groups, the buffer a command leaves when it sets
`SLEN`, and what each command answers. -/

namespace Sys2Proof.Machine

/-- A byte list as the groups RG85 makes of it (R56). -/
def bytesToGroups (bs : List Byte) : List Group := (regroupPadded (bs.map BitVec.toNat) 8 5).map (BitVec.ofNat 5)

theorem map_toNat_map_ofNat {w : Nat} {xs : List Nat} (h : ∀ x ∈ xs, x < 2 ^ w) :
    (xs.map (BitVec.ofNat w)).map BitVec.toNat = xs := by
  have hid : ∀ x ∈ xs, (BitVec.toNat ∘ BitVec.ofNat w) x = id x := fun x hx => Nat.mod_eq_of_lt (h x hx)
  rw [List.map_map, List.map_congr_left hid, List.map_id]

theorem map_ofNat_map_toNat {w : Nat} (vs : List (BitVec w)) : (vs.map BitVec.toNat).map (BitVec.ofNat w) = vs := by
  simp [Function.comp_def]

theorem forall_mem_map_toNat_lt {w : Nat} (vs : List (BitVec w)) : ∀ x ∈ vs.map BitVec.toNat, x < 2 ^ w := by
  simpa using fun v _ => v.isLt

theorem bytesToGroups_toNat (bs : List Byte) :
    (bytesToGroups bs).map BitVec.toNat = regroupPadded (bs.map BitVec.toNat) 8 5 :=
  map_toNat_map_ofNat (regroupPadded_lt (by decide))

@[simp] theorem bytesToGroups_length (bs : List Byte) : (bytesToGroups bs).length = groupCount bs.length := by
  rw [bytesToGroups, List.length_map, regroupPadded_length_groupCount, List.length_map]

/-- The groups as cells. -/
theorem groupCells_bytesToGroups (bs : List Byte) :
    groupCells (bytesToGroups bs) = (regroupPadded (bs.map BitVec.toNat) 8 5).map (BitVec.ofNat 8) := by
  rw [← bytesToGroups_toNat, groupCells, List.map_map]
  exact List.map_congr_left fun g _ => (BitVec.ofNat_toNat 8 g).symm

theorem groupCells_bytesToGroups_length (bs : List Byte) :
    (groupCells (bytesToGroups bs)).length = groupCount bs.length := by simp

/-- Groups regroup to bytes exactly if they are the groups of these bytes (R59). -/
theorem regroup_groups_eq_some_iff {gs : List Group} {out : List Nat} :
    regroup (gs.map BitVec.toNat) 5 8 false = some out ↔
      ∃ bs : List Byte, bytesToGroups bs = gs ∧ out = bs.map BitVec.toNat := by
  have hexact : regroup (gs.map BitVec.toNat) 5 8 false = some out ↔ _ :=
    regroupExact_eq_some_iff_regroupPadded (by decide) (by decide) (forall_mem_map_toNat_lt gs)
  rw [hexact]
  constructor
  · rintro ⟨hout, hgs⟩
    refine ⟨out.map (BitVec.ofNat 8), ?_, (map_toNat_map_ofNat hout).symm⟩
    rw [bytesToGroups, map_toNat_map_ofNat hout, hgs, map_ofNat_map_toNat]
  · rintro ⟨bs, rfl, rfl⟩
    exact ⟨forall_mem_map_toNat_lt bs, (bytesToGroups_toNat bs).symm⟩

/-- The state in which `ys` is the whole of `SBV` and the status is clear. -/
def State.refilled (s : State) (ys : List Byte) : State := { s.replaced ys with slen := BitVec.ofNat 8 ys.length }

@[simp] theorem State.refilled_sb (s : State) (ys : List Byte) : (s.refilled ys).sb = s.sb.writeFrom 0 ys := rfl

theorem State.refilled_overwritten {s : State} {ys : List Byte} (hw : s.sb.wf = true)
    (hfit : ys.length ≤ Config.sbDepth) : s.sb.Overwritten (s.refilled ys).sb 0 ys :=
  Memory.writeFrom_overwritten hw 0 ys (by omega)

theorem State.refilled_sbvIs {s : State} {ys : List Byte} (hw : s.sb.wf = true)
    (hfit : ys.length ≤ Config.sbDepth) : (s.refilled ys).sbvIs ys := by
  obtain ⟨_, hread⟩ := State.refilled_overwritten hw hfit
  have hlen : ys.length < 2 ^ 8 := hfit.trans_lt (by decide)
  refine ⟨(Nat.mod_eq_of_lt hlen).symm, fun j hj => ?_⟩
  rw [hread j, if_pos ⟨Nat.zero_le j, by omega⟩, Nat.sub_zero]

theorem exec_rg85_overflow {s : State} (h : Config.sbDepth < groupCount s.slen.toNat) :
    exec .rg85 s = .next (s.withStatus (some .capacityExceeded) 0) := by
  rcases checkCapacity_cases (groupCount s.slen.toNat) with ⟨hle, _⟩ | ⟨_, hc⟩
  · omega
  · simp only [exec, execRg85, hc]; rfl

/-- RG85 on bytes whose groups fit leaves the groups (R56). -/
theorem exec_rg85_of_sbvIs {s : State} {bs : List Byte} (hs : s.sbvIs bs)
    (hfit : groupCount bs.length ≤ Config.sbDepth) :
    exec .rg85 s = .next (s.refilled (groupCells (bytesToGroups bs))) := by
  have hlen : groupCount s.slen.toNat = (groupCells (bytesToGroups bs)).length := by simp [hs.1]
  rcases checkCapacity_cases (groupCount s.slen.toNat) with ⟨_, hc⟩ | ⟨hover, _⟩
  · simp only [exec, execRg85, hc, State.sbv_of_sbvIs hs, ← groupCells_bytesToGroups]
    rw [hlen]; rfl
  · rw [← hs.1] at hover; omega

/-- The lowest cell above 31 is refused (R92). -/
theorem groupsOperand_invalidValue {s : State} {xs : List Byte} {i : Nat} {v : Byte} (hw : s.sb.wf = true)
    (hs : s.sbvIs xs) (hv : xs[i]? = some v) (hbad : 31 < v.toNat) (hbefore : ∀ u ∈ xs.take i, u.toNat ≤ 31) :
    groupsOperand s = .error ⟨.invalidValue, indexInfo i⟩ := by
  have hcheck : checkCells .invalidValue (fun b => !isGroup b) xs = .error ⟨.invalidValue, indexInfo i⟩ :=
    checkCells_error hv (by simpa [isGroup] using hbad) (by simpa [isGroup] using hbefore)
  rw [groupsOperand_of_sbvIs hw hs, hcheck]; rfl

/-- RG58 regroups the groups it takes (R57). -/
theorem exec_rg58 (s : State) : exec .rg58 s = complete s ((groupsOperand s).bind fun gs =>
    (regroup (gs.map BitVec.toNat) 5 8 false).elim (.error ⟨.invalidPadding, 0⟩)
      fun out => .ok { s.withCells 0 (out.map (BitVec.ofNat 8)) with slen := BitVec.ofNat 8 out.length }) := by
  simp only [exec, execRg58]
  cases groupsOperand s with
  | error r => rfl
  | ok gs => cases hr : regroup (gs.map BitVec.toNat) 5 8 false <;> simp only [bind, Except.bind, hr] <;> rfl

/-- RG58 on groups that do not regroup refuses their padding (R57). -/
theorem exec_rg58_invalidPadding {s : State} {gs : List Group} (hw : s.sb.wf = true) (hs : s.sbvIs (groupCells gs))
    (h : regroup (gs.map BitVec.toNat) 5 8 false = none) :
    exec .rg58 s = .next (s.withStatus (some .invalidPadding) 0) := by
  rw [exec_rg58, groupsOperand_of_groupCells hw hs]
  simp only [Except.bind, h]; rfl

/-- RG58 on the groups of bytes leaves the bytes (R57, R59). -/
theorem exec_rg58_of_bytesToGroups {s : State} {bs : List Byte} (hw : s.sb.wf = true)
    (hs : s.sbvIs (groupCells (bytesToGroups bs))) : exec .rg58 s = .next (s.refilled bs) := by
  have hr := regroup_groups_eq_some_iff.2 ⟨bs, rfl, rfl⟩
  rw [exec_rg58, groupsOperand_of_groupCells hw hs]
  simp only [Except.bind, hr, Option.elim, map_ofNat_map_toNat, List.length_map]; rfl

/-- Where RG58 leaves no error, its groups were those of the bytes it leaves. -/
theorem exec_rg58_succeeds {s t : State} {gs : List Group} (hw : s.sb.wf = true) (hs : s.sbvIs (groupCells gs))
    (h : exec .rg58 s = .next t) (hok : t.ecode = none) : ∃ bs, bytesToGroups bs = gs ∧ t = s.refilled bs := by
  cases hr : regroup (gs.map BitVec.toNat) 5 8 false with
  | none =>
    obtain rfl : _ = t := by simpa [exec_rg58_invalidPadding hw hs hr] using h
    cases hok
  | some out =>
    obtain ⟨bs, rfl, _⟩ := regroup_groups_eq_some_iff.1 hr
    exact ⟨bs, rfl, by simpa [exec_rg58_of_bytesToGroups hw hs] using h.symm⟩

theorem le_groupCount (n : Nat) : n ≤ groupCount n := by rw [groupCount]; omega

/-- Groups that are in the buffer fit in it. -/
theorem groupCount_le_of_sbvIs {s : State} {bs : List Byte} (hw : s.sb.wf = true)
    (hs : s.sbvIs (groupCells (bytesToGroups bs))) : groupCount bs.length ≤ Config.sbDepth := by
  have hlen := hs.1
  rw [groupCells_length, bytesToGroups_length] at hlen
  exact hlen ▸ State.slen_le_of_sbvIs hw hs

end Sys2Proof.Machine
end

section
/-! The statements of 41_regroup.md: the bit regrouper and the two commands that use it. -/

namespace Sys2Proof.Machine

/-- Settles O24: `out` is the whole groups and `acc` the leftover as a number; shifted up it is the padded group. -/
theorem regroupLoopComputesTheStream : Obligations.RegroupLoopComputesTheStream := by
  unfold Obligations.RegroupLoopComputesTheStream
  intro xs wi wo pad _ hwo hxs
  obtain ⟨acc, nb, hloop, hnb, hacc, hleft⟩ := absorbSymbols_eq hwo hxs
  cases pad with
  | true =>
    have hlast : ofBitsMsb (bitsMsb nb acc ++ List.replicate (wo - nb) false) =
        (acc <<< (wo - nb)) &&& (2 ^ wo - 1) := by
      rw [← bitsMsb_shiftLeft, ofBitsMsb_bitsMsb, Nat.and_two_pow_sub_one_eq_mod, Nat.add_sub_cancel' hnb.le]
    simp only [regroupLoop, hloop, regroup, regroupPadded, hleft, bitsMsb_length, hlast, if_true]
    by_cases h0 : nb = 0
    · simp [h0]
    · simp [h0, Nat.pos_of_ne_zero h0]
  | false =>
    have hzero : (bitsMsb nb acc).any id = true ↔ acc ≠ 0 := by
      rw [← not_iff_not, not_not, Bool.not_eq_true, any_id_eq_false_iff, bitsMsb_length, bitsMsb_eq_zeros_iff,
        Nat.mod_eq_of_lt hacc]
    simp only [regroupLoop, hloop, regroup, regroupExact, hleft, bitsMsb_length, hzero, Bool.false_eq_true, if_false]

/-- Settles O29: RG58 takes the groups of bytes to these bytes, and accepts no other groups (R59). -/
theorem regroupBufferRoundTrip : Obligations.RegroupBufferRoundTrip := by
  unfold Obligations.RegroupBufferRoundTrip
  constructor
  · intro s bs hw hs hfit
    have hcells := (groupCells_bytesToGroups_length bs).trans_le hfit
    have hwf : (s.refilled (groupCells (bytesToGroups bs))).sb.wf = true := by simpa using hw
    have hgroups := State.refilled_sbvIs hw hcells
    exact ⟨_, _, exec_rg85_of_sbvIs hs hfit, rfl, exec_rg58_of_bytesToGroups hwf hgroups, rfl,
      State.refilled_sbvIs hwf ((le_groupCount _).trans hfit)⟩
  · intro s t gs hw hs h hok
    obtain ⟨bs, rfl, rfl⟩ := exec_rg58_succeeds hw hs h hok
    have hfit := groupCount_le_of_sbvIs hw hs
    have hwf : (s.refilled bs).sb.wf = true := by simpa using hw
    exact ⟨_, exec_rg85_of_sbvIs (State.refilled_sbvIs hw ((le_groupCount _).trans hfit)) hfit, rfl,
      State.refilled_sbvIs hwf (by simpa using hfit)⟩

/-- The zero bits that complete the groups of `n` bytes (R58). -/
theorem groupCount_padding (n : Nat) : 5 * groupCount n - 8 * n = [0, 2, 4, 1, 3].getD (n % 5) 0 := by
  have hlt : n % 5 < 5 := Nat.mod_lt _ (by decide)
  rw [groupCount]
  interval_cases h : n % 5
  all_goals simp only [List.getD_cons_zero, List.getD_cons_succ]; omega

/-- Where a stream of groups ends in `k` zeros, fewer than a group has, so does the last group. -/
theorem getLast?_mod_eq_zero {w k g : Nat} {ys : List Nat} {bs : List Bool} (hk : k < w)
    (hstream : bitStream w ys = bs ++ List.replicate k false) (hg : ys.getLast? = some g) : g % 2 ^ k = 0 := by
  obtain ⟨init, rfl⟩ := List.getLast?_eq_some_iff.1 hg
  rw [bitStream_concat, ← Nat.sub_add_cancel hk.le, bitsMsb_add, ← List.append_assoc] at hstream
  exact bitsMsb_eq_zeros_iff.1 (List.append_inj_right' hstream (by simp))

/-- Settles O25: the lengths by counting bits; the last group ends in the zeros that complete the stream. -/
theorem regroupLengths : Obligations.RegroupLengths := by
  unfold Obligations.RegroupLengths
  refine ⟨fun bs out hout => ?padded, fun gs out hout => ?exact⟩
  case padded =>
    obtain rfl : regroupPadded (bs.map BitVec.toNat) 8 5 = out := Option.some.inj hout
    have hlen : (regroupPadded (bs.map BitVec.toNat) 8 5).length = groupCount bs.length := by
      rw [regroupPadded_length_groupCount, List.length_map]
    refine ⟨hlen, hlen ▸ groupCount_padding bs.length, fun g hg => ?_⟩
    obtain ⟨k, hk, hstream⟩ := bitStream_regroupPadded (wi := 8) (xs := bs.map BitVec.toNat) (by decide : 0 < 5)
    have hbits := congrArg List.length hstream
    rw [List.length_append, List.length_replicate, bitStream_length, bitStream_length, List.length_map] at hbits
    rw [show 5 * (regroupPadded (bs.map BitVec.toNat) 8 5).length - 8 * bs.length = k by omega]
    exact getLast?_mod_eq_zero hk hstream hg
  case exact =>
    obtain ⟨rfl, _⟩ := regroupExact_eq_some_iff.1 hout
    rw [wholeGroups_length, List.length_map, Nat.mul_comm]

/-- Settles O26: the leftover is five bits or more, and the groups are those of the bytes (R60). -/
theorem longLeftoverIsInvalidPadding : Obligations.LongLeftoverIsInvalidPadding := by
  unfold Obligations.LongLeftoverIsInvalidPadding
  refine ⟨fun gs hlong => regroupExact_eq_none_of_long ?_, fun gs hs out hgs hhs => ?_⟩
  · rwa [leftover_length, List.length_map, Nat.mul_comm]
  · obtain ⟨bs, rfl, rfl⟩ := regroup_groups_eq_some_iff.1 hgs
    obtain ⟨bs', rfl, hbs⟩ := regroup_groups_eq_some_iff.1 hhs
    rw [List.map_injective_iff.2 (fun _ _ => BitVec.eq_of_toNat_eq) hbs]

/-- Settles O27: the capacity check on the length of the result, then the groups in place of the bytes. -/
theorem rg85RegroupsBytes : Obligations.Rg85RegroupsBytes := by
  unfold Obligations.Rg85RegroupsBytes
  refine ⟨decode_encode .rg85, fun s hover => exec_rg85_overflow hover, fun s bs hw hs hfit => ?_⟩
  have hcells := (groupCells_bytesToGroups_length bs).trans_le hfit
  have hover := State.refilled_overwritten hw hcells
  have hexec := exec_rg85_of_sbvIs hs hfit
  rw [State.refilled, groupCells_bytesToGroups, List.length_map] at hexec
  rw [groupCells_bytesToGroups] at hover
  exact ⟨_, _, rfl, hover, hexec⟩

/-- Settles O28: the groups operand makes the first two errors; groups that regroup are those of the bytes left. -/
theorem rg58RegroupsGroups : Obligations.Rg58RegroupsGroups := by
  unfold Obligations.Rg58RegroupsGroups
  refine ⟨decode_encode .rg58, fun s hover => ?capacity, fun s xs i v hw hs hv hbad hbefore => ?invalid,
    fun s gs hw hs => exec_rg58_invalidPadding hw hs, fun s gs out hw hs hout => ?regroups⟩
  case capacity => rw [exec_rg58, groupsOperand_overflow hover]; rfl
  case invalid => rw [exec_rg58, groupsOperand_invalidValue hw hs hv hbad hbefore]; rfl
  case regroups =>
    obtain ⟨bs, rfl, rfl⟩ := regroup_groups_eq_some_iff.1 hout
    have hfit := (le_groupCount _).trans (groupCount_le_of_sbvIs hw hs)
    rw [map_ofNat_map_toNat, List.length_map]
    exact ⟨_, State.refilled_overwritten hw hfit, exec_rg58_of_bytesToGroups hw hs⟩

end Sys2Proof.Machine
end

section
/-! SUPPORT. The algebra of the checksum (R65, R66): one step as three XORs, linear in the accumulator and the symbol
together; the part without feedback; and what the default terms add, which is that a step can be undone. -/

namespace Sys2Proof.Machine

theorem gated_xor (b b' : Bool) (x : Acc) : gated (b ^^ b') x = gated b x ^^^ gated b' x := by
  cases b <;> cases b' <;> simp [gated]

theorem feedback_xor (g : GenTable) (a b : Group) : feedback g (a ^^^ b) = feedback g a ^^^ feedback g b := by
  simp only [feedback, BitVec.getLsbD_xor, gated_xor]
  ac_rfl

theorem feedback_zero (g : GenTable) : feedback g 0 = 0 := by simp [feedback, gated]

/-- The mask of R65 clears bits that the shift drops anyway. -/
theorem mask_shiftLeft (c : Acc) : (c &&& 0x07FFFFFFFF) <<< 5 = c <<< 5 := by
  apply BitVec.eq_of_toNat_eq
  rw [BitVec.toNat_shiftLeft, BitVec.toNat_shiftLeft, BitVec.toNat_and]
  rw [show (0x07FFFFFFFF : Acc).toNat = 2 ^ 35 - 1 from rfl, Nat.and_two_pow_sub_one_eq_mod]
  rw [Nat.shiftLeft_eq, Nat.shiftLeft_eq]
  omega

/-- A symbol lies below the accumulator shifted up (R65). -/
theorem shiftLeft_or_symbol (c : Acc) (v : Group) : c <<< 5 ||| v.setWidth 40 = c <<< 5 ^^^ v.setWidth 40 := by
  ext i hi
  by_cases h : i < 5
  · simp [h]
  · simp [BitVec.getLsbD_of_ge v i (by omega)]

theorem pmStep_eq_xor (g : GenTable) (c : Acc) (v : Group) :
    pmStep g c v = c <<< 5 ^^^ v.setWidth 40 ^^^ feedback g (c.extractLsb' 35 5) := by
  rw [pmStep, mask_shiftLeft, shiftLeft_or_symbol]

/-- A step is linear over XOR (R67). -/
theorem pmStep_xor (g : GenTable) (c c' : Acc) (v v' : Group) :
    pmStep g (c ^^^ c') (v ^^^ v') = pmStep g c v ^^^ pmStep g c' v' := by
  simp only [pmStep_eq_xor, BitVec.shiftLeft_xor_distrib, BitVec.setWidth_xor, BitVec.extractLsb'_xor, feedback_xor]
  ac_rfl

theorem polymod_append (g : GenTable) (c : Acc) (xs ys : List Group) :
    polymod g c (xs ++ ys) = polymod g (polymod g c xs) ys := List.foldl_append

/-- Polymod is linear over XOR (R67). -/
theorem polymod_xor (g : GenTable) (c c' : Acc) {xs ys : List Group} (h : xs.length = ys.length) :
    polymod g (c ^^^ c') (List.zipWith (· ^^^ ·) xs ys) = polymod g c xs ^^^ polymod g c' ys := by
  induction xs generalizing c c' ys with
  | nil =>
    obtain rfl : ys = [] := by simpa using h.symm
    rfl
  | cons x xs ih =>
    cases ys with
    | nil => cases h
    | cons y ys => simpa [polymod, pmStep_xor] using ih (pmStep g c x) (pmStep g c' y) (Nat.succ.inj h)

/-- While the top five bits are zero a step only shifts the symbol in. -/
theorem pmStep_toNat_of_lt (g : GenTable) {c : Acc} (v : Group) (hc : c.toNat < 2 ^ 35) :
    (pmStep g c v).toNat = 32 * c.toNat + v.toNat := by
  have htop : c.extractLsb' 35 5 = 0 := by
    apply BitVec.eq_of_toNat_eq
    rw [BitVec.extractLsb'_toNat, Nat.shiftRight_eq_zero _ _ hc]; rfl
  have hv : v.toNat < 2 ^ 5 := v.isLt
  have hstep : pmStep g c v = c <<< 5 ||| v.setWidth 40 := by
    rw [pmStep, mask_shiftLeft, htop, feedback_zero]
    exact BitVec.xor_zero
  rw [hstep, BitVec.toNat_or, BitVec.toNat_shiftLeft, BitVec.toNat_setWidth, Nat.shiftLeft_eq,
    Nat.mod_eq_of_lt (by omega), Nat.mod_eq_of_lt (by omega), Nat.mul_comm]
  exact (Nat.two_pow_add_eq_or_of_lt hv _).symm

theorem ofGroups_lt (gs : List Group) : ofGroups gs < 2 ^ (5 * gs.length) := by
  induction gs using List.reverseRecOn with
  | nil => decide
  | append_singleton gs v ih =>
    have hv : v.toNat < 2 ^ 5 := v.isLt
    rw [ofGroups_concat, List.length_append, List.length_singleton, Nat.mul_add, Nat.pow_add]
    omega

/-- From zero, up to eight groups are only shifted in. -/
theorem polymod_zero_toNat (g : GenTable) {gs : List Group} (h : gs.length ≤ 8) :
    (polymod g 0 gs).toNat = ofGroups gs := by
  induction gs using List.reverseRecOn with
  | nil => rfl
  | append_singleton gs v ih =>
    have hlen : gs.length < 8 := by simpa using h
    have hacc := ih (by omega)
    have hlt : (polymod g 0 gs).toNat < 2 ^ 35 :=
      hacc ▸ (ofGroups_lt gs).trans_le (Nat.pow_le_pow_right (by decide) (by omega))
    rw [polymod_append, ofGroups_concat, ← hacc]
    exact pmStep_toNat_of_lt g v hlt

/-- The groups of a 40-bit value, absorbed from zero, give the value back (R41). -/
theorem polymod_zero_split40 (g : GenTable) (x : Acc) : polymod g 0 (split40 x) = x :=
  BitVec.eq_of_toNat_eq ((polymod_zero_toNat g (split40_length x).le).trans (ofGroups_split40 x))

/-- Absorbing the groups of a value is absorbing as many zeros, up to the value (R67). -/
theorem polymod_split40 (g : GenTable) (c x : Acc) :
    polymod g c (split40 x) = polymod g c (List.replicate 8 0) ^^^ x := by
  have hzip : List.zipWith (· ^^^ ·) (List.replicate 8 0) (split40 x) = split40 x := by
    simp [split40, List.range_succ]
  calc polymod g c (split40 x)
      = polymod g (c ^^^ 0) (List.zipWith (· ^^^ ·) (List.replicate 8 0) (split40 x)) := by
        rw [hzip, show c ^^^ 0 = c from BitVec.xor_zero]
    _ = polymod g c (List.replicate 8 0) ^^^ x := by
        rw [polymod_xor g c 0 (by simp), polymod_zero_split40]

/-- The residue closes a message: absorbed in place of eight zeros it leaves 1 (R67). -/
theorem polymod_residue (g : GenTable) (c : Acc) :
    polymod g c (split40 (residue (polymod g c (List.replicate 8 0)))) = 1 := by
  rw [polymod_split40, residue, ← BitVec.xor_assoc, BitVec.xor_self, BitVec.zero_xor]

/-- The low five bits of each default term are one bit, so the feedback shows which terms went into it (R73). -/
theorem feedback_pmGen_low (v : Group) : (feedback pmGen v).setWidth 5 = v := by
  revert v; decide +kernel

theorem pmStep_pmGen_low (c : Acc) (v : Group) : (pmStep pmGen c v).setWidth 5 = v ^^^ c.extractLsb' 35 5 := by
  have hshift : (c <<< 5).setWidth 5 = 0#5 := by
    ext i hi
    simp
  rw [pmStep_eq_xor, BitVec.setWidth_xor, BitVec.setWidth_xor, hshift, feedback_pmGen_low, BitVec.zero_xor,
    BitVec.setWidth_setWidth_of_le _ (by decide), BitVec.setWidth_eq]

theorem eq_of_shiftLeft_of_top {c c' : Acc} (hlow : c <<< 5 = c' <<< 5)
    (htop : c.extractLsb' 35 5 = c'.extractLsb' 35 5) : c = c' := by
  apply BitVec.eq_of_toNat_eq
  have hlow' := congrArg BitVec.toNat hlow
  have htop' := congrArg BitVec.toNat htop
  rw [BitVec.toNat_shiftLeft, BitVec.toNat_shiftLeft, Nat.shiftLeft_eq, Nat.shiftLeft_eq] at hlow'
  rw [BitVec.extractLsb'_toNat, BitVec.extractLsb'_toNat, Nat.shiftRight_eq_div_pow,
    Nat.shiftRight_eq_div_pow] at htop'
  omega

/-- With the default terms a step can be undone: what it leaves shows which terms went in, and so the rest (R73). -/
theorem pmStep_pmGen_injective {c c' : Acc} {v : Group} (h : pmStep pmGen c v = pmStep pmGen c' v) : c = c' := by
  have htop : c.extractLsb' 35 5 = c'.extractLsb' 35 5 := by
    have hlow := congrArg (BitVec.setWidth 5) h
    rwa [pmStep_pmGen_low, pmStep_pmGen_low, BitVec.xor_right_inj] at hlow
  refine eq_of_shiftLeft_of_top ?_ htop
  rwa [pmStep_eq_xor, pmStep_eq_xor, htop, BitVec.xor_left_inj, BitVec.xor_left_inj] at h

theorem polymod_pmGen_injective {c c' : Acc} {xs : List Group} (h : polymod pmGen c xs = polymod pmGen c' xs) :
    c = c' := by
  induction xs generalizing c c' with
  | nil => exact h
  | cons x xs ih => exact pmStep_pmGen_injective (ih h)

/-- Two symbols absorbed from one accumulator leave two accumulators, whatever the terms. -/
theorem pmStep_symbol_injective {g : GenTable} {c : Acc} {a b : Group} (h : pmStep g c a = pmStep g c b) : a = b := by
  rw [pmStep_eq_xor, pmStep_eq_xor, BitVec.xor_left_inj, BitVec.xor_right_inj] at h
  simpa using congrArg (BitVec.setWidth 5) h

/-- With the default terms one changed symbol is seen in the accumulator, whatever follows it (R73). -/
theorem polymod_pmGen_ne_of_symbol_ne (c : Acc) (xs ys : List Group) {a b : Group} (hne : a ≠ b) :
    polymod pmGen c (xs ++ a :: ys) ≠ polymod pmGen c (xs ++ b :: ys) := by
  intro h
  rw [polymod_append, polymod_append] at h
  exact hne (pmStep_symbol_injective (polymod_pmGen_injective h))

end Sys2Proof.Machine
end

section
/-! SUPPORT. D0's engine on a 64-bit accumulator (R65), step by step against the 40-bit register. -/

namespace Sys2Proof.Machine

/-- D0's step on a 64-bit accumulator, as R65 writes it, its masks and shifts included. -/
def d0Step (g : GenTable) (a : BitVec 64) (v : Group) : BitVec 64 :=
  let c0 := (a >>> 35) &&& 0xff
  let a := ((a &&& 0x07ffffffff) <<< 5) ||| v.setWidth 64
  let a := if c0.getLsbD 0 then a ^^^ g.g0.setWidth 64 else a
  let a := if c0.getLsbD 1 then a ^^^ g.g1.setWidth 64 else a
  let a := if c0.getLsbD 2 then a ^^^ g.g2.setWidth 64 else a
  let a := if c0.getLsbD 3 then a ^^^ g.g3.setWidth 64 else a
  if c0.getLsbD 4 then a ^^^ g.g4.setWidth 64 else a

/-- A term under a condition is a gated term. -/
theorem ite_xor_setWidth (b : Bool) (a : BitVec 64) (x : Acc) :
    (if b then a ^^^ x.setWidth 64 else a) = a ^^^ (gated b x).setWidth 64 := by
  cases b <;> simp [gated]

/-- D0's bit `i` of `c0`, masked to eight bits, is the one of the 40-bit register. -/
theorem getLsbD_topByte (c : Acc) {i : Nat} (hi : i < 5) :
    ((c.setWidth 64 >>> 35) &&& 0xff).getLsbD i = (c.extractLsb' 35 5).getLsbD i := by
  interval_cases i <;> simp

/-- The low 35 bits shifted up stay below bit 40 in either width. -/
theorem shifted_setWidth (c : Acc) :
    (c.setWidth 64 &&& 0x07ffffffff) <<< 5 = ((c &&& 0x07FFFFFFFF) <<< 5).setWidth 64 := by
  apply BitVec.eq_of_toNat_eq
  rw [BitVec.toNat_setWidth, BitVec.toNat_shiftLeft, BitVec.toNat_shiftLeft, BitVec.toNat_and, BitVec.toNat_and,
    BitVec.toNat_setWidth]
  rw [show (0x07ffffffff : BitVec 64).toNat = 2 ^ 35 - 1 from rfl,
    show (0x07FFFFFFFF : Acc).toNat = 2 ^ 35 - 1 from rfl, Nat.and_two_pow_sub_one_eq_mod,
    Nat.and_two_pow_sub_one_eq_mod, Nat.shiftLeft_eq, Nat.shiftLeft_eq]
  omega

theorem d0Step_setWidth (g : GenTable) (c : Acc) (v : Group) :
    d0Step g (c.setWidth 64) v = (pmStep g c v).setWidth 64 := by
  have hsymbol : v.setWidth 64 = (v.setWidth 40).setWidth 64 := (BitVec.setWidth_setWidth (by decide)).symm
  simp only [d0Step, ite_xor_setWidth, getLsbD_topByte c, Nat.reduceLT, shifted_setWidth, hsymbol, pmStep, feedback,
    BitVec.setWidth_xor, BitVec.setWidth_or]
  ac_rfl

end Sys2Proof.Machine
end

section
/-! SUPPORT. What the checksum commands answer (R68 to R72). -/

namespace Sys2Proof.Machine

/-- The state in which the accumulator holds `x` and the status is clear. -/
def State.withAcc (s : State) (x : Acc) : State := { s with c := x, ecode := none, einfo := 0 }

@[simp] theorem State.withAcc_c (s : State) (x : Acc) : (s.withAcc x).c = x := rfl

/-- PMINIT (R68). -/
theorem exec_pminit (s : State) : exec .pminit s = .next (s.withAcc 1) := rfl

/-- PMPUSH on a 5-bit value (R69). -/
theorem exec_pmpush_of_le {s : State} (h : s.arg0.toNat ≤ 31) :
    exec .pmpush s = .next (s.withAcc (pmStep s.gen s.c (toGroup s.arg0))) := by
  simp only [exec, execPmpush, scalarGroup_ok h]; rfl

/-- PMRUN absorbs the groups it takes (R70). -/
theorem exec_pmrun (s : State) :
    exec .pmrun s = complete s ((groupsOperand s).map fun gs => { s with c := polymod s.gen s.c gs }) := by
  simp only [exec, execPmrun]
  cases groupsOperand s <;> rfl

/-- PMRUN on groups (R70). -/
theorem exec_pmrun_of_groupCells {s : State} {gs : List Group} (hw : s.sb.wf = true) (hs : s.sbvIs (groupCells gs)) :
    exec .pmrun s = .next (s.withAcc (polymod s.gen s.c gs)) := by
  rw [exec_pmrun, groupsOperand_of_groupCells hw hs]; rfl

/-- The state PMEMBED leaves: the residue after eight zeros stands behind the valid cells, `C` is what it was computed
from (R71). -/
def State.embedded (s : State) : State :=
  { s.withCells s.slen.toNat (groupCells (split40 (residue (polymod s.gen s.c (List.replicate 8 0))))) with
    slen := BitVec.ofNat 8 (s.slen.toNat + 8), c := polymod s.gen s.c (List.replicate 8 0), ecode := none, einfo := 0 }

@[simp] theorem State.embedded_sb_wf (s : State) : s.embedded.sb.wf = s.sb.wf := Memory.writeFrom_wf _ _ _

/-- PMEMBED with eight cells free (R71). -/
theorem exec_pmembed_of_fits {s : State} (h : s.slen.toNat + 8 ≤ Config.sbDepth) :
    exec .pmembed s = .next s.embedded := by
  rcases checkCapacity_cases (s.slen.toNat + 8) with ⟨_, hc⟩ | ⟨hover, _⟩
  · have hslen : s.slen + 8 = BitVec.ofNat 8 (s.slen.toNat + 8) := by simp [BitVec.ofNat_add]
    simp only [exec, execPmembed, hc, hslen]; rfl
  · omega

/-- PMEMBED with fewer than eight cells free (R71). -/
theorem exec_pmembed_overflow {s : State} (h : Config.sbDepth < s.slen.toNat + 8) :
    exec .pmembed s = .next (s.withStatus (some .capacityExceeded) 0) := by
  rcases checkCapacity_cases (s.slen.toNat + 8) with ⟨hle, _⟩ | ⟨_, hc⟩
  · omega
  · simp only [exec, execPmembed, hc]; rfl

/-- PMEMBED writes the eight cells after the valid ones. -/
theorem State.embedded_overwritten {s : State} (hw : s.sb.wf = true) (h : s.slen.toNat + 8 ≤ Config.sbDepth) :
    s.sb.Overwritten s.embedded.sb s.slen.toNat
      (groupCells (split40 (residue (polymod s.gen s.c (List.replicate 8 0))))) :=
  Memory.writeFrom_overwritten hw _ _ (by simpa using h)

/-- After PMEMBED the valid part is what it was, followed by the eight groups. -/
theorem State.embedded_sbvIs {s : State} {gs : List Group} (hw : s.sb.wf = true) (hs : s.sbvIs (groupCells gs))
    (h : gs.length + 8 ≤ Config.sbDepth) :
    s.embedded.sbvIs (groupCells (gs ++ split40 (residue (polymod s.gen s.c (List.replicate 8 0))))) := by
  have hlen : gs.length = s.slen.toNat := by simpa using hs.1
  obtain ⟨_, hread⟩ := State.embedded_overwritten hw (hlen ▸ h)
  have hsmall : s.slen.toNat + 8 < 2 ^ 8 := (hlen ▸ h).trans_lt (by decide)
  refine ⟨?_, fun j hj => ?_⟩
  · rw [groupCells_length, List.length_append, split40_length, hlen]
    exact (Nat.mod_eq_of_lt hsmall).symm
  · rw [hread j, groupCells_length, split40_length, ← hlen]
    simp only [groupCells, List.map_append, List.length_append, List.length_map, split40_length] at hj ⊢
    by_cases hin : j < gs.length
    · rw [if_neg (by omega), List.getElem?_append_left (by simpa using hin)]
      exact hs.2 j (by simpa using hin)
    · rw [if_pos (by omega), List.getElem?_append_right (by simpa using hin), List.length_map]

/-- PMCHECK on a valid message (R72). -/
theorem exec_pmcheck_of_one {s : State} (h : s.c = 1) : exec .pmcheck s = .next (s.withStatus none 0) := by
  simp only [exec, execPmcheck, if_pos h]; rfl

/-- PMCHECK on any other message (R72). -/
theorem exec_pmcheck_of_ne_one {s : State} (h : s.c ≠ 1) :
    exec .pmcheck s = .next (s.withStatus (some .checksumMismatch) 0) := by
  simp only [exec, execPmcheck, if_neg h]; rfl

end Sys2Proof.Machine
end

section
/-! SUPPORT. What runs of host transactions leave (R45, R46): a command, the cells and `SLEN` of a `load`, and
the symbols of a string pushed into the accumulator. -/

namespace Sys2Proof.Machine

theorem transactAll_cons {s t : State} {e : HostEvent} (h : transact s e = .next t) (es : List HostEvent) :
    transactAll s (e :: es) = transactAll t es := by
  simp only [transactAll, h]

/-- Transactions issued after others start from the state these leave (R27). -/
theorem transactAll_append {s t : State} {es : List HostEvent} (h : transactAll s es = .next t) (fs : List HostEvent) :
    transactAll s (es ++ fs) = transactAll t fs := by
  induction es generalizing s with
  | nil => cases h; rfl
  | cons e es ih =>
    cases he : transact s e with
    | next u =>
      rw [transactAll_cons he] at h
      rw [List.cons_append, transactAll_cons he, ih h]
    | fault f => cases f
    | refused r => simp [transactAll, he] at h

/-- A command line of a script runs the command with its word stored (R8). -/
theorem transact_cmd (s : State) (i : Instr) : transact s (cmd i) = exec i (s.withCmd (encode i)) :=
  runWord_ok (decode_encode i) s

theorem transactAll_cmd {s t : State} {i : Instr} (h : exec i (s.withCmd (encode i)) = .next t) (es : List HostEvent) :
    transactAll s (cmd i :: es) = transactAll t es :=
  transactAll_cons ((transact_cmd s i).trans h) es

theorem wrsb_of_lt {i : Nat} (hi : i < Config.sbDepth) (v : Byte) :
    wrsb i v = some (.write (BitVec.ofNat 9 (0x100 + i)) v) := by
  simp [wrsb, HostReg.offset?, hi]

theorem transact_write_cell (s : State) {i : Nat} (hi : i < Config.sbDepth) (v : Byte) :
    transact s (.write (BitVec.ofNat 9 (0x100 + i)) v) = .next (s.withCells i [v]) := by
  have hdepth : Config.sbDepth = 128 := rfl
  have hoff : (BitVec.ofNat 9 (0x100 + i)).toNat = 0x100 + i := Nat.mod_eq_of_lt (by omega)
  rw [transact, HostReg.ofOffset_cell hi hoff]; rfl

theorem transactAll_loadCells (s : State) {i : Nat} {vs : List Byte} (hfit : i + vs.length ≤ Config.sbDepth) :
    transactAll s (loadCells i vs) = .next (s.withCells i vs) := by
  induction vs generalizing s i with
  | nil => rfl
  | cons v vs ih =>
    rw [List.length_cons] at hfit
    have hi : i < Config.sbDepth := by omega
    rw [loadCells, wrsb_of_lt hi, Option.toList_some, List.singleton_append,
      transactAll_cons (transact_write_cell s hi v), ih _ (by omega)]
    rfl

/-- The state after `load`: the list stands in the first cells and is the whole of `SBV` (R46). -/
def State.loaded (s : State) (vs : List Byte) : State := { s.withCells 0 vs with slen := BitVec.ofNat 8 vs.length }

theorem State.loaded_wf {s : State} (hw : s.sb.wf = true) (vs : List Byte) : (s.loaded vs).sb.wf = true :=
  (Memory.writeFrom_wf _ _ _).trans hw

theorem State.loaded_sbvIs {s : State} {vs : List Byte} (hw : s.sb.wf = true) (hfit : vs.length ≤ Config.sbDepth) :
    (s.loaded vs).sbvIs vs := State.refilled_sbvIs hw hfit

theorem transactAll_load {s : State} {vs : List Byte} (hfit : vs.length ≤ Config.sbDepth) :
    transactAll s (load vs) = .next (s.loaded vs) := by
  rw [load, transactAll_append (transactAll_loadCells s (by omega))]; rfl

/-- The state after a symbol has been pushed, the accumulator now at `x` (R46). -/
def State.pushed (s : State) (x : Acc) (v : Byte) : State :=
  { s with arg0 := v, cmd := encode .pmpush, c := x, ecode := none, einfo := 0 }

theorem transactAll_push (s : State) {v : Byte} (hv : v.toNat ≤ 31) :
    transactAll s (push v) = .next (s.pushed (pmStep s.gen s.c (toGroup v)) v) := by
  let u : State := { s with arg0 := v }
  have hpush := exec_pmpush_of_le (s := u.withCmd (encode .pmpush)) hv
  rw [push, transactAll_cons (t := u) rfl, transactAll_cmd hpush]; rfl

theorem lowFive_le (ch : Byte) : (ch &&& 0x1F).toNat ≤ 31 := by
  rw [BitVec.toNat_and]; exact Nat.and_le_right

theorem toGroup_lowFive (ch : Byte) : toGroup (ch &&& 0x1F) = ch.setWidth 5 := by
  revert ch; decide +kernel

/-- Pushing a string absorbs its expanded form (R42, R46). -/
theorem transactAll_pushPrefix (s : State) (p : List Byte) :
    transactAll s (pushPrefix p) = .next (s.pushed (polymod s.gen s.c (expandPrefix p)) 0) := by
  induction p generalizing s with
  | nil => exact transactAll_push s (by decide)
  | cons ch p ih =>
    have hcons : pushPrefix (ch :: p) = push (ch &&& 0x1F) ++ pushPrefix p := by simp [pushPrefix]
    rw [hcons, transactAll_append (transactAll_push s (lowFive_le ch)), ih, toGroup_lowFive]; rfl

/-- What a host reads with `dump` is the valid part of the buffer (R46). -/
theorem dump_of_sbvIs {s : State} {xs : List Byte} (h : s.sbvIs xs) : dump s = xs := by
  obtain ⟨hlen, hread⟩ := h
  refine List.ext_getElem (by simp [dump, hostRead, hlen]) fun j hj hj' => ?_
  simp [dump, hostRead, hread j hj', hj']

end Sys2Proof.Machine
end

section
/-! SUPPORT. The parts of the two host sequences (R84, R85), each on a buffer that holds groups. -/

namespace Sys2Proof.Machine

/-- The last command ended in OK and left the groups `gs` in the buffer, in a block with the terms `g`. -/
structure State.Holds (s : State) (g : GenTable) (gs : List Group) : Prop where
  wf : s.sb.wf = true
  gen : s.gen = g
  ok : s.ecode = none
  sbv : s.sbvIs (groupCells gs)

section
variable {s : State} {g : GenTable} {gs : List Group}

theorem State.Holds.withCmd (h : s.Holds g gs) (w : Byte) : (s.withCmd w).Holds g gs := ⟨h.wf, h.gen, h.ok, h.sbv⟩

/-- The payload's bytes loaded and regrouped (R84 steps 3 and 4). -/
theorem transactAll_rg85 {bs : List Byte} (hw : s.sb.wf = true) (hfit : groupCount bs.length ≤ Config.sbDepth) :
    ∃ u, transactAll s (load bs ++ [cmd .rg85]) = .next u ∧ u.Holds s.gen (bytesToGroups bs) := by
  have hbytes : bs.length ≤ Config.sbDepth := (le_groupCount _).trans hfit
  have hwf : ((s.loaded bs).withCmd (encode .rg85)).sb.wf = true := State.loaded_wf hw bs
  have hexec := exec_rg85_of_sbvIs (s := (s.loaded bs).withCmd (encode .rg85)) (State.loaded_sbvIs hw hbytes) hfit
  refine ⟨_, (transactAll_append (transactAll_load hbytes) _).trans (transactAll_cmd hexec []),
    ⟨?_, rfl, rfl, State.refilled_sbvIs hwf (by simpa using hfit)⟩⟩
  rw [State.refilled_sb, Memory.writeFrom_wf, hwf]

theorem State.replaced_holds {xs : List Byte} (hw : s.sb.wf = true) (hs : s.sbvIs xs)
    (hvals : xs.map charToValue = gs.map some) : (s.replaced (groupCells gs)).Holds s.gen gs := by
  have hlen : (groupCells gs).length = xs.length := by simpa using (congrArg List.length hvals).symm
  exact ⟨by simpa using hw, rfl, rfl, State.replaced_sbvIs hw hs hlen⟩

/-- A body of one case whose characters all have values is decoded to these (R85 steps 3 and 4). -/
theorem transactAll_b32ds {body : List Byte} (hw : s.sb.wf = true) (hfit : body.length ≤ Config.sbDepth)
    (hcase : OneCase body) (hvals : body.map charToValue = gs.map some) :
    ∃ u, transactAll s (load body ++ [cmd .b32ds]) = .next u ∧ u.Holds s.gen gs := by
  have hwf : ((s.loaded body).withCmd (encode .b32ds)).sb.wf = true := State.loaded_wf hw body
  have hsbv : ((s.loaded body).withCmd (encode .b32ds)).sbvIs body := State.loaded_sbvIs hw hfit
  have hexec := exec_b32ds_of_values hwf hsbv hcase hvals
  exact ⟨_, (transactAll_append (transactAll_load hfit) _).trans (transactAll_cmd hexec []),
    State.replaced_holds hwf hsbv hvals⟩

/-- Whatever the body, B32DS answers; and where it leaves no error, the characters all have values. -/
theorem transactAll_b32ds_answers {body : List Byte} (hw : s.sb.wf = true) (hfit : body.length ≤ Config.sbDepth) :
    ∃ u, transactAll s (load body ++ [cmd .b32ds]) = .next u ∧
      (u.ecode = none → ∃ gs, body.map charToValue = gs.map some ∧ u.Holds s.gen gs) := by
  have hwf : ((s.loaded body).withCmd (encode .b32ds)).sb.wf = true := State.loaded_wf hw body
  have hsbv : ((s.loaded body).withCmd (encode .b32ds)).sbvIs body := State.loaded_sbvIs hw hfit
  obtain ⟨e, he⟩ := exec_eq_complete .b32ds ((s.loaded body).withCmd (encode .b32ds))
  obtain ⟨u, hu⟩ := complete_next ((s.loaded body).withCmd (encode .b32ds)) e
  refine ⟨u, (transactAll_append (transactAll_load hfit) _).trans (transactAll_cmd (he.trans hu) []), fun hok => ?_⟩
  obtain ⟨gs, hvals, rfl⟩ := exec_b32ds_succeeds hwf hsbv (he.trans hu) hok
  exact ⟨gs, hvals, State.replaced_holds hwf hsbv hvals⟩

/-- `p` expanded and the groups of the buffer, absorbed from PMINIT on (R84 steps 5 and 6, R85 step 5). -/
theorem transactAll_absorb (h : s.Holds g gs) (p : List Byte) :
    ∃ u, transactAll s (cmd .pminit :: pushPrefix p ++ [cmd .pmrun]) = .next u ∧ u.Holds g gs ∧
      u.c = polymod g 1 (expandPrefix p ++ gs) := by
  let u : State := (s.withAcc 1).pushed (polymod s.gen 1 (expandPrefix p)) 0
  have hpush : transactAll s (cmd .pminit :: pushPrefix p) = .next u := by
    rw [transactAll_cmd (exec_pminit _), transactAll_pushPrefix]; rfl
  have hu : (u.withCmd (encode .pmrun)).Holds g gs := ⟨h.wf, h.gen, rfl, h.sbv⟩
  have hrun := exec_pmrun_of_groupCells hu.wf hu.sbv
  refine ⟨_, (transactAll_append hpush _).trans (transactAll_cmd hrun []), ⟨hu.wf, hu.gen, rfl, hu.sbv⟩, ?_⟩
  rw [polymod_append, State.withAcc_c, hu.gen, ← h.gen]; rfl

/-- A body that does not verify after `p` fails PMCHECK (R85 step 5). -/
theorem transactAll_verify_mismatch (h : s.Holds g gs) {p : List Byte}
    (hne : polymod g 1 (expandPrefix p ++ gs) ≠ 1) :
    ∃ u, transactAll s (cmd .pminit :: pushPrefix p ++ [cmd .pmrun, cmd .pmcheck]) = .next u ∧
      u.ecode = some .checksumMismatch := by
  obtain ⟨u, habsorb, _, hacc⟩ := transactAll_absorb h p
  have hcheck := exec_pmcheck_of_ne_one (s := u.withCmd (encode .pmcheck)) (hacc ▸ hne)
  have hsplit : cmd .pminit :: pushPrefix p ++ [cmd .pmrun, cmd .pmcheck] =
      (cmd .pminit :: pushPrefix p ++ [cmd .pmrun]) ++ [cmd .pmcheck] := by simp
  exact ⟨_, hsplit ▸ (transactAll_append habsorb _).trans (transactAll_cmd hcheck []), rfl⟩

/-- The checksum appended (R84 step 7). -/
theorem transactAll_pmembed (h : s.Holds g gs) (hfit : gs.length + 8 ≤ Config.sbDepth) :
    ∃ u, transactAll s [cmd .pmembed] = .next u ∧
      u.Holds g (gs ++ split40 (residue (polymod g s.c (List.replicate 8 0)))) := by
  have hs := h.withCmd (encode .pmembed)
  have hlen : gs.length = (s.withCmd (encode .pmembed)).slen.toNat := by simpa using hs.sbv.1
  have hsbv := State.embedded_sbvIs hs.wf hs.sbv hfit
  rw [hs.gen] at hsbv
  exact ⟨_, transactAll_cmd (exec_pmembed_of_fits (hlen ▸ hfit)) [],
    ⟨(State.embedded_sb_wf _).trans hs.wf, hs.gen, rfl, hsbv⟩⟩

/-- The groups made characters, as the host then dumps them (R84 steps 8 and 9). -/
theorem transactAll_b32es (h : s.Holds g gs) :
    ∃ u, transactAll s [cmd .b32es] = .next u ∧ u.ecode = none ∧ dump u = gs.map valueToChar := by
  have hs := h.withCmd (encode .b32es)
  exact ⟨_, transactAll_cmd (exec_b32es_of_groupCells hs.wf hs.sbv) [], rfl,
    dump_of_sbvIs (State.replaced_sbvIs hs.wf hs.sbv (by simp))⟩

end

/-! How a sequence goes on after its transactions (R83). -/

theorem kindOfStatus_statusByte (e : Option ErrorKind) : kindOfStatus (statusByte e) = e := by
  obtain ⟨_, _, _, _, _, _, _, _, _, _, _, hread⟩ := statusIsErrZerosAndEcode
  exact hread e

section
variable {α : Type} {s t : State} {es : List HostEvent} {report : ErrorKind → SeqError}

theorem requireOk_of_error {k : Unit → Run α} {e : ErrorKind} (h : s.ecode = some e) :
    requireOk s report k = failWith s (report e) := by
  simp only [requireOk, hostRead, kindOfStatus_statusByte, h]

theorem requireOk_of_ok {k : Unit → Run α} (h : s.ecode = none) : requireOk s report k = k () := by
  simp only [requireOk, hostRead, kindOfStatus_statusByte, h]

theorem issue_of_next {k : State → Run α} (h : transactAll s es = .next t) : issue s es k = k t := by
  simp only [issue, h]

/-- Transactions that end in OK: the sequence goes on. -/
theorem issue_requireOk {k : State → Unit → Run α} (h : transactAll s es = .next t) (hok : t.ecode = none) :
    (issue s es fun u => requireOk u report (k u)) = k t () := by
  rw [issue_of_next h, requireOk_of_ok hok]

/-- Transactions that end in an error: the sequence reports it and stops. -/
theorem issue_requireError {k : State → Unit → Run α} {e : ErrorKind} (h : transactAll s es = .next t)
    (herr : t.ecode = some e) : (issue s es fun u => requireOk u report (k u)) = failWith t (report e) := by
  rw [issue_of_next h, requireOk_of_error herr]

/-- A sequence that ends in a result has passed its check. -/
theorem runResult_requireOk_ok {k : Unit → Run α} {a : α}
    (h : runResult (requireOk s report k) = some (.ok a)) : s.ecode = none ∧ runResult (k ()) = some (.ok a) := by
  cases he : s.ecode with
  | none => exact ⟨rfl, by rwa [requireOk_of_ok he] at h⟩
  | some e => rw [requireOk_of_error he] at h; cases h

end

end Sys2Proof.Machine
end

section
/-! SUPPORT. The Encoder (R84): each of its results, with the groups of the address it answers. -/

namespace Sys2Proof.Machine

/-- The groups of an address: those of the payload, then the eight that make its checksum valid (R84 steps 4 to 7). -/
def addressGroups (g : GenTable) (pfx payload : List Byte) : List Group :=
  bytesToGroups payload ++
    split40 (residue (polymod g (polymod g 1 (expandPrefix pfx ++ bytesToGroups payload)) (List.replicate 8 0)))

theorem addressGroups_length (g : GenTable) (pfx payload : List Byte) :
    (addressGroups g pfx payload).length = groupCount payload.length + 8 := by simp [addressGroups]

/-- The size classes, at most 64 bytes (R38). -/
theorem le_of_mem_sizeTable {n : Nat} (h : n ∈ sizeTable.map BitVec.toNat) : n ≤ 64 := by
  revert n; decide

/-- An address fits in the buffer, whatever its version byte and hash. -/
theorem addressGroups_fit (g : GenTable) (pfx : List Byte) {v : Byte} {hash : List Byte}
    (hlen : hash.length ∈ sizeTable.map BitVec.toNat) :
    (addressGroups g pfx (v :: hash)).length ≤ Config.sbDepth := by
  have hdepth : Config.sbDepth = 128 := rfl
  have hsize := le_of_mem_sizeTable hlen
  rw [addressGroups_length, groupCount, List.length_cons]
  omega

/-- The groups of an address verify after `pfx` (R67). -/
theorem polymod_addressGroups (g : GenTable) (pfx payload : List Byte) :
    polymod g 1 (expandPrefix pfx ++ addressGroups g pfx payload) = 1 := by
  rw [addressGroups, ← List.append_assoc, polymod_append, polymod_residue]

/-- A hash of another length: no transaction is issued (R84 step 1). -/
theorem encodeAddress_invalidHashLength (s : State) (pfx : List Byte) (t : Byte) {hash : List Byte}
    (h : hash.length ∉ sizeTable.map BitVec.toNat) :
    encodeAddress s pfx t hash = failWith s .invalidHashLength := if_pos h

/-- VENC on a type and a length that have a version byte answers it in `RES0` (R84 step 2). -/
theorem transactAll_venc {s : State} (hw : s.sb.wf = true) {t n v : Byte} (h : versionEncode t n = .ok v) :
    ∃ u, transactAll s [wrArg0 t, wrArg1 n, cmd .venc] = .next u ∧ u.ecode = none ∧ hostRead u .res0 = v ∧
      u.sb.wf = true ∧ u.gen = s.gen := by
  let u : State := { s with arg0 := t, arg1 := n }
  have hexec : exec .venc (u.withCmd (encode .venc)) =
      .next (({ u.withCmd (encode .venc) with res0 := v } : State).withStatus none 0) := by
    simp only [exec, execVenc, u, State.withCmd, h]; rfl
  exact ⟨_, transactAll_cmd hexec [], rfl, rfl, hw, rfl⟩

/-- VENC on any other type or length fails (R84 step 2). -/
theorem transactAll_venc_error (s : State) {t n : Byte} {k : ErrorKind} (h : versionEncode t n = .error k) :
    ∃ u, transactAll s [wrArg0 t, wrArg1 n, cmd .venc] = .next u ∧ u.ecode = some k := by
  let u : State := { s with arg0 := t, arg1 := n }
  have hexec : exec .venc (u.withCmd (encode .venc)) = .next ((u.withCmd (encode .venc)).withStatus (some k) 0) := by
    simp only [exec, execVenc, u, State.withCmd, h]; rfl
  exact ⟨_, transactAll_cmd hexec [], rfl⟩

/-- A type or length without a version byte: VENC's error is reported (R84 step 2). -/
theorem encodeAddress_versionError (s : State) (pfx : List Byte) {t : Byte} {hash : List Byte} {k : ErrorKind}
    (hlen : hash.length ∈ sizeTable.map BitVec.toNat) (hv : versionEncode t (BitVec.ofNat 8 hash.length) = .error k) :
    ∃ u, encodeAddress s pfx t hash = failWith u (.kind k) := by
  obtain ⟨u, hvenc, herr⟩ := transactAll_venc_error s hv
  exact ⟨u, (if_neg (not_not.2 hlen)).trans (issue_requireError hvenc herr)⟩

/-- The Encoder's result: `pfx`, a colon, and the characters of the address's groups (R84). -/
theorem encodeAddress_ok {s : State} (hw : s.sb.wf = true) (pfx : List Byte) {t v : Byte} {hash : List Byte}
    (hlen : hash.length ∈ sizeTable.map BitVec.toNat) (hv : versionEncode t (BitVec.ofNat 8 hash.length) = .ok v) :
    ∃ u, encodeAddress s pfx t hash =
      finish u (pfx ++ [0x3A] ++ (addressGroups s.gen pfx (v :: hash)).map valueToChar) := by
  have hfit := addressGroups_fit (v := v) s.gen pfx hlen
  rw [addressGroups_length] at hfit
  obtain ⟨s₁, hvenc, hok₁, hres, hw₁, hgen⟩ := transactAll_venc hw hv
  obtain ⟨s₂, hregroup, hs₂⟩ := transactAll_rg85 (bs := v :: hash) hw₁ (by omega)
  rw [hgen] at hs₂
  obtain ⟨s₃, habsorb, hs₃, hacc⟩ := transactAll_absorb hs₂ pfx
  obtain ⟨s₄, hembed, hs₄⟩ := transactAll_pmembed hs₃ (by rw [bytesToGroups_length]; omega)
  obtain ⟨s₅, hchars, hok₅, hdump⟩ := transactAll_b32es hs₄
  refine ⟨s₅, ?_⟩
  rw [encodeAddress, if_neg (not_not.2 hlen), issue_requireOk hvenc hok₁, hres, issue_requireOk hregroup hs₂.ok,
    issue_requireOk habsorb hs₃.ok, issue_requireOk hembed hs₄.ok, issue_requireOk hchars hok₅, hdump, hacc]
  rfl

/-- Where the Encoder ends in a result, that is an address of the payload of some version byte and the hash. -/
theorem encodeAddress_ok_inv {s : State} (hw : s.sb.wf = true) {pfx : List Byte} {t : Byte} {hash str : List Byte}
    (h : runResult (encodeAddress s pfx t hash) = some (.ok str)) :
    ∃ v, hash.length ∈ sizeTable.map BitVec.toNat ∧
      str = pfx ++ [0x3A] ++ (addressGroups s.gen pfx (v :: hash)).map valueToChar := by
  by_cases hlen : hash.length ∈ sizeTable.map BitVec.toNat
  · cases hv : versionEncode t (BitVec.ofNat 8 hash.length) with
    | error k =>
      obtain ⟨u, hrun⟩ := encodeAddress_versionError s pfx hlen hv
      rw [hrun] at h; cases h
    | ok v =>
      obtain ⟨u, hrun⟩ := encodeAddress_ok hw pfx hlen hv
      rw [hrun] at h; cases h
      exact ⟨v, hlen, rfl⟩
  · rw [encodeAddress_invalidHashLength s pfx t hlen] at h; cases h

end Sys2Proof.Machine
end

section
/-! SUPPORT. The Decoder (R85) up to its checksum. -/

namespace Sys2Proof.Machine

/-- A string is split at the colon after which there is none (R85 step 1). -/
theorem splitAtLastColon_append (pfx : List Byte) {body : List Byte} (h : 0x3A ∉ body) :
    splitAtLastColon (pfx ++ 0x3A :: body) = some (pfx, body) := by
  have hnone : splitAtLastColon body = none := by
    induction body with
    | nil => rfl
    | cons ch body ih =>
      obtain ⟨hch, hbody⟩ := not_or.1 (List.mem_cons.not.1 h)
      rw [splitAtLastColon, ih hbody]; exact if_neg (Ne.symm hch)
  induction pfx with
  | nil => simp [splitAtLastColon, hnone]
  | cons ch pfx ih => rw [List.cons_append, splitAtLastColon, ih]

theorem prefixAndBody_append (dflt : Option (List Byte)) (pfx : List Byte) {body : List Byte} (h : 0x3A ∉ body) :
    prefixAndBody dflt (pfx ++ 0x3A :: body) = (some (pfx.map toLower), body) := by
  rw [prefixAndBody, splitAtLastColon_append pfx h]

/-- A list that does not mix cases has one (R49). -/
theorem oneCase_of_not_mixesCases {xs : List Byte} (h : ¬ MixesCases xs) : OneCase xs := by
  by_cases hupper : ∃ u ∈ xs, caseOf u = some .upper
  · refine ⟨.upper, fun u hu => ?_⟩
    rcases hcase : caseOf u with _ | _ | _
    · exact .inl rfl
    · exact .inr rfl
    · exact absurd ⟨hupper, u, hu, hcase⟩ h
  · refine ⟨.lower, fun u hu => ?_⟩
    rcases hcase : caseOf u with _ | _ | _
    · exact .inl rfl
    · exact absurd ⟨u, hu, hcase⟩ hupper
    · exact .inr rfl

/-- A colon has no value (R48). -/
theorem colon_notMem_of_values {xs : List Byte} {gs : List Group} (h : xs.map charToValue = gs.map some) :
    0x3A ∉ xs := by
  intro hmem
  have hcolon : charToValue 0x3A = none := by decide
  have hvalue : none ∈ gs.map some := hcolon ▸ h ▸ List.mem_map_of_mem hmem
  simp at hvalue

section
variable {s : State} {dflt : Option (List Byte)} {str p body : List Byte}

/-- A body that decodes but does not verify after `p` fails with `ChecksumMismatch` (R85 step 5). -/
theorem decodeAddress_checksumMismatch {gs : List Group} (hw : s.sb.wf = true)
    (hsplit : prefixAndBody dflt str = (some p, body)) (hfit : body.length ≤ Config.sbDepth) (hcase : OneCase body)
    (hvals : body.map charToValue = gs.map some) (hne : polymod s.gen 1 (expandPrefix p ++ gs) ≠ 1) :
    runResult (decodeAddress s dflt str) = some (.error (.kind .checksumMismatch)) := by
  obtain ⟨u, hdecode, hu⟩ := transactAll_b32ds hw hfit hcase hvals
  obtain ⟨v, hverify, herr⟩ := transactAll_verify_mismatch hu hne
  simp only [decodeAddress, hsplit, if_neg (Nat.not_lt.2 hfit)]
  rw [issue_requireOk hdecode hu.ok, issue_requireError hverify herr]
  rfl

/-- Where the Decoder ends in a result, the body fits, has values, and verifies after `p`. -/
theorem valid_of_decodeAddress_ok {a : Address} (hw : s.sb.wf = true)
    (hsplit : prefixAndBody dflt str = (some p, body)) (h : runResult (decodeAddress s dflt str) = some (.ok a)) :
    body.length ≤ Config.sbDepth ∧
      ∃ gs, body.map charToValue = gs.map some ∧ polymod s.gen 1 (expandPrefix p ++ gs) = 1 := by
  simp only [decodeAddress, hsplit] at h
  by_cases hfit : body.length ≤ Config.sbDepth
  · rw [if_neg (Nat.not_lt.2 hfit)] at h
    obtain ⟨u, hdecode, hvalues⟩ := transactAll_b32ds_answers hw hfit
    rw [issue_of_next hdecode] at h
    obtain ⟨hok, h⟩ := runResult_requireOk_ok h
    obtain ⟨gs, hvals, hu⟩ := hvalues hok
    refine ⟨hfit, gs, hvals, ?_⟩
    by_contra hne
    obtain ⟨v, hverify, herr⟩ := transactAll_verify_mismatch hu hne
    rw [issue_requireError hverify herr] at h
    cases h
  · rw [if_pos (Nat.not_le.1 hfit)] at h; cases h

end

end Sys2Proof.Machine
end

section
/-! The statements of 42_polymod.md: the checksum, its five commands, and what it detects in an address. -/

namespace Sys2Proof.Machine

/-- Settles O38: the message leaves some accumulator, and from any the residue closes it (`polymod_residue`). -/
theorem embeddedResidueMakesTheMessageValid : Obligations.EmbeddedResidueMakesTheMessageValid := by
  unfold Obligations.EmbeddedResidueMakesTheMessageValid
  intro g c xs
  rw [polymod_append, polymod_append, polymod_residue]

/-- Settles O39: the groups PMEMBED appends are the residue of the accumulator PMRUN left, so absorbing the whole buffer
from the start PMRUN had leaves 1 (`polymod_residue`). -/
theorem embeddedBufferPassesTheCheck : Obligations.EmbeddedBufferPassesTheCheck := by
  unfold Obligations.EmbeddedBufferPassesTheCheck
  intro s gs hw hs hfit
  let a := s.withAcc (polymod s.gen s.c gs)
  have hlen : gs.length = s.slen.toNat := by simpa using hs.1
  have hsbv : ({ a.embedded with c := s.c } : State).sbvIs _ := State.embedded_sbvIs (s := a) hw hs hfit
  have hwf : ({ a.embedded with c := s.c } : State).sb.wf = true := a.embedded_sb_wf.trans hw
  have hone : polymod s.gen s.c (gs ++ split40 (residue (polymod a.gen a.c (List.replicate 8 0)))) = 1 := by
    rw [polymod_append]
    exact polymod_residue s.gen (polymod s.gen s.c gs)
  exact ⟨a, a.embedded, _, exec_pmrun_of_groupCells hw hs, exec_pmembed_of_fits (hlen ▸ hfit), rfl,
    exec_pmrun_of_groupCells hwf hsbv, hone, exec_pmcheck_of_one hone⟩

/-- Settles O40: a step with the default terms can be undone, so a difference in the accumulator stays, and two symbols
make one. -/
theorem oneChangedSymbolChangesTheChecksum : Obligations.OneChangedSymbolChangesTheChecksum := by
  unfold Obligations.OneChangedSymbolChangesTheChecksum
  exact ⟨fun c xs ys _ _ hne => polymod_pmGen_ne_of_symbol_ne c xs ys hne,
    fun _ _ _ hne h => hne (polymod_pmGen_injective h)⟩

/-- Settles O56: the two bodies have the same values but for one, so only the first can verify
(`polymod_pmGen_ne_of_symbol_ne`). -/
theorem substitutedCharacterFailsTheChecksum : Obligations.SubstitutedCharacterFailsTheChecksum := by
  unfold Obligations.SubstitutedCharacterFailsTheChecksum
  rintro s s' dflt pfx _ _ a hw hw' hgen hgen' hcolon hok ⟨l, r, x, y, v, rfl, rfl, hy, hx, hmix⟩
  obtain ⟨hfit, gs, hvals, hvalid⟩ := valid_of_decodeAddress_ok hw (prefixAndBody_append dflt pfx hcolon) hok
  rw [List.map_append, List.map_cons] at hvals
  obtain ⟨ls, rest, rfl, hls, hrest⟩ := List.map_eq_append_iff.1 hvals.symm
  obtain ⟨w, rs, rfl, hwx, hrs⟩ := List.map_eq_cons_iff.1 hrest
  have hne : w ≠ v := by
    rintro rfl
    exact hx hwx.symm
  have hvals' : (l ++ y :: r).map charToValue = (ls ++ v :: rs).map some := by simp [hls, hrs, hy]
  refine decodeAddress_checksumMismatch hw' (prefixAndBody_append dflt pfx (colon_notMem_of_values hvals'))
    (by simpa using hfit) (oneCase_of_not_mixesCases hmix) hvals' ?_
  rw [hgen, ← List.append_assoc] at hvalid
  rw [hgen', ← List.append_assoc]
  exact fun h => polymod_pmGen_ne_of_symbol_ne _ _ _ hne (hvalid.trans h.symm)

/-- Settles O57: the body verifies under `pfx`, and what differs before the body differs after it
(`polymod_pmGen_injective`). -/
theorem otherPrefixFailsTheChecksum : Obligations.OtherPrefixFailsTheChecksum := by
  unfold Obligations.OtherPrefixFailsTheChecksum
  intro s s' dflt pfx other t hash body hw hw' hgen hgen' hencode hne
  obtain ⟨v, hlen, hstr⟩ := encodeAddress_ok_inv hw hencode
  obtain rfl : body = (addressGroups pmGen pfx (v :: hash)).map valueToChar := by simpa [hgen] using hstr
  have hvals : ((addressGroups pmGen pfx (v :: hash)).map valueToChar).map charToValue =
      (addressGroups pmGen pfx (v :: hash)).map some := by simp
  have hcase : OneCase ((addressGroups pmGen pfx (v :: hash)).map valueToChar) :=
    ⟨.lower, by simpa using fun g _ => caseOf_valueToChar g⟩
  refine decodeAddress_checksumMismatch hw' (prefixAndBody_append dflt other (colon_notMem_of_values hvals))
    (by simpa using addressGroups_fit pmGen pfx hlen) hcase hvals fun hvalid => hne ?_
  rw [hgen'] at hvalid
  have hsame := hvalid.trans (polymod_addressGroups pmGen pfx (v :: hash)).symm
  rw [polymod_append, polymod_append] at hsame
  exact polymod_pmGen_injective hsame

/-- Settles O30: the two steps agree, so the folds do. -/
theorem fortyBitsComputeTheSixtyFourBitEngine : Obligations.FortyBitsComputeTheSixtyFourBitEngine := by
  unfold Obligations.FortyBitsComputeTheSixtyFourBitEngine
  intro g c vs
  exact List.foldl_hom (BitVec.setWidth 64) (d0Step_setWidth g)

/-- Settles O31: the fold law is that of lists, linearity that of one step. -/
theorem polymodFoldsOverPieces : Obligations.PolymodFoldsOverPieces := by
  unfold Obligations.PolymodFoldsOverPieces
  exact ⟨rfl, rfl, fun g c c' xs ys => ⟨rfl, polymod_append g c xs ys, polymod_xor g c c'⟩⟩

/-- Settles O35: the groups operand makes the three answers, in the order of its checks. -/
theorem pmrunAbsorbsTheBuffer : Obligations.PmrunAbsorbsTheBuffer := by
  unfold Obligations.PmrunAbsorbsTheBuffer
  refine ⟨decode_encode .pmrun, fun s hover => ?capacity, fun s xs i v hw hs hv hbad hbefore => ?invalid,
    fun s gs hw hs => exec_pmrun_of_groupCells hw hs⟩
  case capacity => rw [exec_pmrun, groupsOperand_overflow hover]; rfl
  case invalid => rw [exec_pmrun, groupsOperand_invalidValue hw hs hv hbad hbefore]; rfl

/-- Settles O36: the capacity check, then the eight cells after the valid ones. -/
theorem pmembedAppendsTheChecksum : Obligations.PmembedAppendsTheChecksum := by
  unfold Obligations.PmembedAppendsTheChecksum
  exact ⟨decode_encode .pmembed, fun s hover => exec_pmembed_overflow hover, fun s hw hfit =>
    ⟨_, State.embedded_overwritten hw hfit, exec_pmembed_of_fits hfit⟩⟩

/-- Settles O33: PMINIT has no operand to check. -/
theorem pminitSetsTheAccumulatorToOne : Obligations.PminitSetsTheAccumulatorToOne := by
  unfold Obligations.PminitSetsTheAccumulatorToOne
  exact ⟨decode_encode .pminit, exec_pminit⟩

/-- Settles O34: the scalar operand passes up to 31 and raises above. -/
theorem pmpushAbsorbsOneSymbol : Obligations.PmpushAbsorbsOneSymbol := by
  unfold Obligations.PmpushAbsorbsOneSymbol
  refine ⟨decode_encode .pmpush, fun s hle => ?_, fun s hgt => ?_⟩
  · rw [BitVec.ofNat_toNat]
    exact exec_pmpush_of_le hle
  · simp only [exec, execPmpush, scalarGroup_error hgt]; rfl

/-- Settles O37, by the two cases of the test. -/
theorem pmcheckTestsTheResidue : Obligations.PmcheckTestsTheResidue := by
  unfold Obligations.PmcheckTestsTheResidue
  exact ⟨decode_encode .pmcheck, fun _ => exec_pmcheck_of_one, fun _ => exec_pmcheck_of_ne_one⟩

end Sys2Proof.Machine
end

section
/-! SUPPORT. The version byte: the size classes as the rows of their table (R38), the layout of the byte (R40), and the
answers of VENC and VDEC. -/

namespace Sys2Proof.Machine

/-! The size classes (R38). -/

/-- A length at row `i` of the table is that of the class `i`. -/
theorem sizeOfClass_of_row {n : Byte} {i : Nat} (h : (sizeTable.map BitVec.toNat)[i]? = some n.toNat) :
    ∃ k : BitVec 3, k.toNat = i ∧ sizeOfClass k = n := by
  obtain ⟨hi, hrow⟩ := List.getElem?_eq_some_iff.1 h
  rw [List.length_map] at hi
  rw [List.getElem_map] at hrow
  exact ⟨BitVec.ofNatLT i hi, rfl, BitVec.eq_of_toNat_eq hrow⟩

/-- A legal length is that of some class. -/
theorem sizeOfClass_of_mem {n : Byte} (h : n.toNat ∈ sizeTable.map BitVec.toNat) : ∃ k, sizeOfClass k = n := by
  obtain ⟨i, hi⟩ := List.mem_iff_getElem?.1 h
  obtain ⟨k, -, hk⟩ := sizeOfClass_of_row hi
  exact ⟨k, hk⟩

/-- The length of a class stands in the table at the class's number. -/
theorem sizeOfClass_eq_getD :
    ∀ k : BitVec 3, sizeOfClass k = BitVec.ofNat 8 ((sizeTable.map BitVec.toNat).getD k.toNat 0) := by decide

/-- No two classes have the same length. -/
@[simp] theorem classOf_sizeOfClass : ∀ k : BitVec 3, classOf (sizeOfClass k) = some k := by decide

theorem classOf_of_not_mem {n : Byte} (h : n.toNat ∉ sizeTable.map BitVec.toNat) : classOf n = none := by
  rw [classOf, Option.map_eq_none_iff, List.findIdx?_eq_none_iff]
  exact fun m hm => beq_false_of_ne fun heq => h (heq ▸ List.mem_map_of_mem hm)

/-! `version_encode` (R74): an equation per case. -/

theorem versionEncode_of_not_mem (t : Byte) {n : Byte} (h : n.toNat ∉ sizeTable.map BitVec.toNat) :
    versionEncode t n = .error .unsupportedLength := by simp [versionEncode, classOf_of_not_mem h]

theorem versionEncode_of_one_lt {t : Byte} (h : 1 < t.toNat) (k : BitVec 3) :
    versionEncode t (sizeOfClass k) = .error .unsupportedType := by simp [versionEncode, h]

theorem versionEncode_of_le_one {t : Byte} (h : t.toNat ≤ 1) (k : BitVec 3) :
    versionEncode t (sizeOfClass k) = .ok ((t <<< 3) ||| k.setWidth 8) := by
  simp [versionEncode, Nat.not_lt.2 h]

/-- What has a version byte: a type of the two and the length of a class. -/
theorem versionEncode_ok_inv {t n b : Byte} (h : versionEncode t n = .ok b) :
    ∃ k, t.toNat ≤ 1 ∧ sizeOfClass k = n ∧ b = ((t <<< 3) ||| k.setWidth 8) := by
  by_cases hn : n.toNat ∈ sizeTable.map BitVec.toNat
  · obtain ⟨k, rfl⟩ := sizeOfClass_of_mem hn
    by_cases ht : t.toNat ≤ 1
    · exact ⟨k, ht, rfl, by simpa [versionEncode_of_le_one ht] using h.symm⟩
    · simp [versionEncode_of_one_lt (Nat.not_le.1 ht)] at h
  · simp [versionEncode_of_not_mem t hn] at h

/-! The layout of the version byte (R40): the type above the class. -/

/-- The fields of the byte do not overlap, so their combination is a sum; a type of five bits loses none. -/
theorem versionByte_toNat {t : Byte} (h : t.toNat < 32) (k : BitVec 3) :
    ((t <<< 3) ||| k.setWidth 8).toNat = 8 * t.toNat + k.toNat := by
  have hk : k.toNat < 2 ^ 3 := k.isLt
  have hshift : t.toNat <<< 3 % 2 ^ 8 = 2 ^ 3 * t.toNat := by rw [Nat.shiftLeft_eq]; omega
  rw [BitVec.toNat_or, BitVec.toNat_shiftLeft, BitVec.toNat_setWidth, Nat.mod_eq_of_lt (a := k.toNat) (by omega),
    hshift, ← Nat.two_pow_add_eq_or_of_lt hk]

theorem versionDecode_type_toNat (b : Byte) : (versionDecode b).1.toNat = b.toNat / 8 := by
  simp only [versionDecode, BitVec.extractLsb'_toNat, Nat.shiftRight_eq_div_pow]
  omega

theorem versionClass_toNat (b : Byte) : (b.extractLsb' 0 3).toNat = b.toNat % 8 := by
  simp [BitVec.extractLsb'_toNat]

/-- The type field as the byte in which VDEC answers it. -/
theorem versionDecode_type_setWidth_toNat (b : Byte) : ((versionDecode b).1.setWidth 8).toNat = b.toNat / 8 := by
  rw [BitVec.toNat_setWidth, versionDecode_type_toNat]
  omega

/-- The two fields make up the byte. -/
theorem versionByte_of_fields (b : Byte) :
    (((versionDecode b).1.setWidth 8 <<< 3) ||| (b.extractLsb' 0 3).setWidth 8) = b := by
  have htype := versionDecode_type_setWidth_toNat b
  apply BitVec.eq_of_toNat_eq
  rw [versionByte_toNat (by omega), htype, versionClass_toNat]
  omega

/-- A byte laid out from a type and a class decodes to them. -/
theorem versionDecode_versionByte {t : Byte} (h : t.toNat < 32) (k : BitVec 3) :
    (versionDecode ((t <<< 3) ||| k.setWidth 8)).1.setWidth 8 = t ∧
      (versionDecode ((t <<< 3) ||| k.setWidth 8)).2 = sizeOfClass k := by
  have hk := k.isLt
  have hbyte := versionByte_toNat h k
  refine ⟨BitVec.eq_of_toNat_eq ?_, congrArg sizeOfClass (BitVec.eq_of_toNat_eq ?_)⟩
  · rw [versionDecode_type_setWidth_toNat, hbyte]; omega
  · rw [versionClass_toNat, hbyte]; omega

/-- The type field is one of the two types where bits 7:4 are 0. -/
theorem versionDecode_type_le_one_iff (b : Byte) :
    ((versionDecode b).1.setWidth 8).toNat ≤ 1 ↔ b.extractLsb' 4 4 = 0 := by
  have hfields := word_toNat_eq_fields b
  have hlow := (b.extractLsb' 0 4).isLt
  rw [versionDecode_type_setWidth_toNat, ← BitVec.toNat_inj, BitVec.ofNat_eq_ofNat, BitVec.toNat_zero]
  omega

/-! The two commands (R76, R77). -/

theorem exec_venc_of_ok {s : State} {b : Byte} (h : versionEncode s.arg0 s.arg1 = .ok b) :
    exec .venc s = .next (({ s with res0 := b } : State).withStatus none 0) := by
  simp only [exec, execVenc, h, complete_ok]

theorem exec_venc_of_error {s : State} {k : ErrorKind} (h : versionEncode s.arg0 s.arg1 = .error k) :
    exec .venc s = .next (s.withStatus (some k) 0) := by
  simp only [exec, execVenc, h, complete_error]

theorem exec_vdec (s : State) :
    exec .vdec s = .next (({ s with res0 := (versionDecode s.arg0).1.setWidth 8,
                                    res1 := (versionDecode s.arg0).2 } : State).withStatus none 0) := rfl

end Sys2Proof.Machine
end

section
/-! The statements of 43_version.md: the version byte and its two commands. -/

namespace Sys2Proof.Machine

/-- Settles O41: `version_encode` makes the three answers, and the byte it makes is the sum of its two fields. -/
theorem vencBuildsTheVersionByte : Obligations.VencBuildsTheVersionByte := by
  unfold Obligations.VencBuildsTheVersionByte
  refine ⟨decode_encode .venc, fun s i hrow ht => ?ok, fun s hn => ?length, fun s hn ht => ?type⟩
  case ok =>
    obtain ⟨k, rfl, hk⟩ := sizeOfClass_of_row hrow
    rw [exec_venc_of_ok (hk ▸ versionEncode_of_le_one ht k), ← versionByte_toNat (by omega), BitVec.ofNat_toNat,
      BitVec.setWidth_eq]
    rfl
  case length => exact exec_venc_of_error (versionEncode_of_not_mem s.arg0 hn)
  case type =>
    obtain ⟨k, hk⟩ := sizeOfClass_of_mem hn
    exact exec_venc_of_error (hk ▸ versionEncode_of_one_lt ht k)

/-- Settles O42: the two fields of the byte are its quotient and its remainder by 8. -/
theorem vdecTakesTheVersionByteApart : Obligations.VdecTakesTheVersionByteApart := by
  unfold Obligations.VdecTakesTheVersionByteApart
  refine ⟨decode_encode .vdec, fun s => ?_⟩
  have htype : (versionDecode s.arg0).1.setWidth 8 = BitVec.ofNat 8 (s.arg0.toNat / 8) := by
    rw [← versionDecode_type_setWidth_toNat, BitVec.ofNat_toNat, BitVec.setWidth_eq]
  have hlen : (versionDecode s.arg0).2 =
      BitVec.ofNat 8 ((sizeTable.map BitVec.toNat).getD (s.arg0.toNat % 8) 0) := by
    rw [← versionClass_toNat]
    exact sizeOfClass_eq_getD _
  rw [exec_vdec, htype, hlen]
  rfl

/-- Settles O43: the layout of the byte is inverted by its fields, and its type field is legal where bits 7:4 are 0. -/
theorem versionByteRoundTrip : Obligations.VersionByteRoundTrip := by
  unfold Obligations.VersionByteRoundTrip
  refine ⟨fun t n b h => ?decodeEncode, fun t n ht hn => ?encodes, fun b h => ?encodeDecode, fun b h => ?refuses⟩
  case decodeEncode =>
    obtain ⟨k, ht, rfl, rfl⟩ := versionEncode_ok_inv h
    exact versionDecode_versionByte (by omega) k
  case encodes =>
    obtain ⟨k, rfl⟩ := sizeOfClass_of_mem hn
    exact ⟨_, versionEncode_of_le_one ht k⟩
  case encodeDecode =>
    exact (versionEncode_of_le_one ((versionDecode_type_le_one_iff b).2 h) _).trans
      (congrArg _ (versionByte_of_fields b))
  case refuses =>
    exact versionEncode_of_one_lt (Nat.not_le.1 (mt (versionDecode_type_le_one_iff b).1 h)) _

end Sys2Proof.Machine
end

section
/-! The statements of 44_control.md: the two control commands and the illegal command word. -/

namespace Sys2Proof.Machine

theorem exec_nop (s : State) : exec .nop s = .next (s.withStatus none 0) := complete_ok s s

theorem exec_clr (s : State) :
    exec .clr s = .next
      (({ s with slen := 0, arg0 := 0, arg1 := 0, res0 := 0, res1 := 0, c := 1 } : State).withStatus none 0) :=
  complete_ok s _

/-- Settles O5: both kinds of illegal word are rejected by the decoder, and what runs then is the raise alone. -/
theorem illegalWordRaisesIllegalCommand : Obligations.IllegalWordRaisesIllegalCommand := by
  unfold Obligations.IllegalWordRaisesIllegalCommand
  intro s rest w hpending hillegal
  obtain ⟨r, hreject⟩ := decode_illegal hillegal
  have hstep : step s = .next { s with pending := rest, cmd := w, ecode := some .illegalCommand, einfo := 0 } :=
    calc step s = runWord w { s with pending := rest } := step_write hpending
      _ = _ := runWord_error hreject _
  exact ⟨hstep, by decide⟩

/-- Settles O15: NOP completes on the state it found. -/
theorem nopClearsTheStatusOnly : Obligations.NopClearsTheStatusOnly := by
  unfold Obligations.NopClearsTheStatusOnly
  exact ⟨decode_encode .nop, exec_nop⟩

/-- Settles O16: CLR completes with its six writes, none of them to `CMD` or `SB`. -/
theorem clrResetsTheRegistersAndKeepsTheBuffer : Obligations.ClrResetsTheRegistersAndKeepsTheBuffer := by
  unfold Obligations.ClrResetsTheRegistersAndKeepsTheBuffer
  exact ⟨decode_encode .clr, exec_clr⟩

end Sys2Proof.Machine
end

section
/-! SUPPORT. The strings of the Decoder: the split into prefix and body (R85 steps 1 and 2, R87), the groups of a body
(steps 3 and 4), and what upper-casing does to both (R86). -/

namespace Sys2Proof.Machine

theorem splitAtLastColon_of_notMem {str : List Byte} (h : 0x3A ∉ str) : splitAtLastColon str = none := by
  have hcolon := splitAtLastColon_append [] h
  rw [List.nil_append, splitAtLastColon] at hcolon
  cases hstr : splitAtLastColon str with
  | none => rfl
  | some parts => simp [hstr] at hcolon

/-- Without a colon the default prefix is the prefix (R87). -/
theorem prefixAndBody_of_notMem (dflt : Option (List Byte)) {str : List Byte} (h : 0x3A ∉ str) :
    prefixAndBody dflt str = (dflt.map (·.map toLower), str) := by
  rw [prefixAndBody, splitAtLastColon_of_notMem h]

theorem toUpper_eq_colon_iff (ch : Byte) : toUpper ch = 0x3A ↔ ch = 0x3A := by
  rw [toUpper_eq]
  split_ifs <;> bv_omega

theorem splitAtLastColon_upperCased (str : List Byte) :
    splitAtLastColon (upperCased str) = (splitAtLastColon str).map (Prod.map upperCased upperCased) := by
  induction str with
  | nil => rfl
  | cons ch rest ih =>
    rw [upperCased_eq_map] at ih ⊢
    rw [List.map_cons, splitAtLastColon, splitAtLastColon, ih]
    cases splitAtLastColon rest with
    | some parts => rfl
    | none =>
      by_cases hch : ch = 0x3A
      · rw [if_pos ((toUpper_eq_colon_iff ch).2 hch), if_pos hch]; rfl
      · rw [if_neg (mt (toUpper_eq_colon_iff ch).1 hch), if_neg hch]; rfl

/-- Upper-casing a string upper-cases its body; its prefix is lowered in any case (R86). -/
theorem prefixAndBody_upperCased (dflt : Option (List Byte)) (str : List Byte) :
    prefixAndBody dflt (upperCased str) = Prod.map id upperCased (prefixAndBody dflt str) := by
  rw [prefixAndBody, prefixAndBody, splitAtLastColon_upperCased]
  cases splitAtLastColon str with
  | none => rfl
  | some parts => simp [upperCased_eq_map, Function.comp_def, toLower_toUpper]

/-- The groups B32DS makes of a body, or what it raises (R53). -/
def bodyGroups (body : List Byte) : Except Raise (List Group) := do
  checkCase body
  checkCells .invalidCharacter (fun ch => (charToValue ch).isNone) body
  return body.filterMap charToValue

/-- A body that has groups is of one case, and the groups are its values. -/
theorem bodyGroups_eq_ok_iff {body : List Byte} {gs : List Group} :
    bodyGroups body = .ok gs ↔ OneCase body ∧ body.map charToValue = gs.map some := by
  constructor
  · intro h
    cases hcase : checkCase body with
    | error r => simp [bodyGroups, hcase, bind, Except.bind] at h
    | ok _ =>
      cases hchars : checkCells .invalidCharacter (fun ch => (charToValue ch).isNone) body with
      | error r => simp [bodyGroups, hcase, hchars, bind, Except.bind] at h
      | ok _ =>
        obtain rfl : body.filterMap charToValue = gs := by
          simpa [bodyGroups, hcase, hchars, bind, Except.bind, pure, Except.pure] using h
        exact ⟨checkCase_ok_iff.1 hcase, map_eq_map_some_filterMap (checkCells_ok_iff.1 hchars)⟩
  · rintro ⟨hcase, hvals⟩
    have hchars : checkCells .invalidCharacter (fun ch => (charToValue ch).isNone) body = .ok () := by
      refine checkCells_ok_iff.2 fun ch hch => ?_
      obtain ⟨v, _, hv⟩ := List.mem_map.1 (hvals ▸ List.mem_map_of_mem hch : charToValue ch ∈ gs.map some)
      rw [← hv]; rfl
    have hgs : body.filterMap charToValue = gs := by
      simpa [List.filterMap_map, Function.comp_def] using congrArg (List.filterMap id) hvals
    rw [bodyGroups, checkCase_ok_iff.2 hcase, hchars, hgs]
    rfl

/-- A body of alphabet characters of one case has groups. -/
theorem bodyGroups_isOk {body : List Byte} (hcase : ¬ MixesCases body)
    (hchars : ∀ u ∈ body, charToValue u ≠ none) : ∃ gs, bodyGroups body = .ok gs :=
  ⟨_, bodyGroups_eq_ok_iff.2 ⟨oneCase_of_not_mixesCases hcase,
    map_eq_map_some_filterMap (by simpa [Option.isSome_iff_ne_none] using hchars)⟩⟩

/-- The characters of groups have these groups. -/
theorem bodyGroups_map_valueToChar (gs : List Group) : bodyGroups (gs.map valueToChar) = .ok gs :=
  bodyGroups_eq_ok_iff.2 ⟨⟨.lower, by simpa using fun g _ => caseOf_valueToChar g⟩, by simp⟩

/-- A body that has groups has the same in upper case (R86). -/
theorem bodyGroups_upperCased {body : List Byte} {gs : List Group} (h : bodyGroups body = .ok gs) :
    bodyGroups (upperCased body) = .ok gs := by
  obtain ⟨_, hvals⟩ := bodyGroups_eq_ok_iff.1 h
  refine bodyGroups_eq_ok_iff.2 ⟨⟨.upper, ?_⟩, ?_⟩
  · simpa [upperCased_eq_map] using fun ch _ => caseOf_toUpper ch
  · simpa [upperCased_eq_map, Function.comp_def] using hvals

theorem not_oneCase_of_mixesCases {xs : List Byte} (h : MixesCases xs) : ¬ OneCase xs := by
  obtain ⟨⟨u, hu, hupper⟩, l, hl, hlower⟩ := h
  rintro ⟨k, hone⟩
  have hku : k = .upper := by simpa [hupper, eq_comm] using hone u hu
  have hkl : k = .lower := by simpa [hlower, eq_comm] using hone l hl
  cases hku.symm.trans hkl

/-- A body that mixes cases raises `MixedCaseError`, whatever else is in it (R53, R96). -/
theorem bodyGroups_of_mixesCases {body : List Byte} (h : MixesCases body) :
    ∃ i, bodyGroups body = .error ⟨.mixedCaseError, i⟩ := by
  cases hindex : mixedCaseIndex body with
  | none =>
    have hok : checkCase body = .ok () := by rw [checkCase, hindex]
    exact absurd (checkCase_ok_iff.1 hok) (not_oneCase_of_mixesCases h)
  | some i => exact ⟨indexInfo i, by rw [bodyGroups, checkCase, hindex]; rfl⟩

end Sys2Proof.Machine
end

section
/-! SUPPORT. What the Decoder (R85) reports, as a function of the table of terms, the prefix and the body: a function
for each part of the sequence, and the lemma that a run of the part reports it. -/

namespace Sys2Proof.Machine

/-- B32DS on the list that is `SBV` writes the list's groups, or raises where it has none (R53). -/
theorem exec_b32ds_eq_bodyGroups {s : State} {xs : List Byte} (hw : s.sb.wf = true) (hs : s.sbvIs xs) :
    exec .b32ds s = complete s ((bodyGroups xs).map fun gs => s.withCells 0 (groupCells gs)) := by
  rw [exec_b32ds_of_sbvIs hw hs, bodyGroups]
  cases checkCase xs with
  | error r => rfl
  | ok _ => cases checkCells .invalidCharacter (fun ch => (charToValue ch).isNone) xs <;> rfl

section
variable {s : State} {g : GenTable} {gs : List Group} {p : List Byte}

/-- A body that has no groups: what it raises stands in the status. -/
theorem transactAll_b32ds_error {body : List Byte} {r : Raise} (hw : s.sb.wf = true)
    (hfit : body.length ≤ Config.sbDepth) (h : bodyGroups body = .error r) :
    ∃ u, transactAll s (load body ++ [cmd .b32ds]) = .next u ∧ u.ecode = some r.kind := by
  have hexec := exec_b32ds_eq_bodyGroups (s := (s.loaded body).withCmd (encode .b32ds)) (State.loaded_wf hw body)
    (State.loaded_sbvIs hw hfit)
  rw [h] at hexec
  exact ⟨_, (transactAll_append (transactAll_load hfit) _).trans (transactAll_cmd hexec []), rfl⟩

/-- A body that verifies after `p` passes PMCHECK, which keeps its groups (R85 step 5). -/
theorem transactAll_verify (h : s.Holds g gs) (hone : polymod g 1 (expandPrefix p ++ gs) = 1) :
    ∃ u, transactAll s (cmd .pminit :: pushPrefix p ++ [cmd .pmrun, cmd .pmcheck]) = .next u ∧ u.Holds g gs := by
  obtain ⟨u, habsorb, hu, hacc⟩ := transactAll_absorb h p
  have hcheck := exec_pmcheck_of_one (s := u.withCmd (encode .pmcheck)) (hacc.trans hone)
  have hsplit : cmd .pminit :: pushPrefix p ++ [cmd .pmrun, cmd .pmcheck] =
      (cmd .pminit :: pushPrefix p ++ [cmd .pmrun]) ++ [cmd .pmcheck] := by simp
  refine ⟨(u.withCmd (encode .pmcheck)).withStatus none 0, ?_, hu.wf, hu.gen, rfl, hu.sbv⟩
  rw [hsplit, transactAll_append habsorb, transactAll_cmd hcheck]; rfl

/-- VDEC answers the fields of the version byte and keeps the buffer (R77). -/
theorem transactAll_vdec (s : State) (v : Byte) :
    ∃ u, transactAll s [wrArg0 v, cmd .vdec] = .next u ∧ hostRead u .res0 = (versionDecode v).1.setWidth 8 ∧
      hostRead u .res1 = (versionDecode v).2 ∧ ∀ i, hostRead u (.sb i) = hostRead s (.sb i) := by
  let u : State := { s with arg0 := v }
  exact ⟨_, transactAll_cmd (exec_vdec (u.withCmd (encode .vdec))) [], rfl, rfl, fun _ => rfl⟩

/-- The cells after the first, as the host reads them. -/
theorem read_tail_of_sbvIs {v : Byte} {hash : List Byte} (h : s.sbvIs (v :: hash)) :
    (List.range hash.length).map (fun i => hostRead s (.sb (i + 1))) = hash := by
  have hdump := dump_of_sbvIs h
  have hlen : (hostRead s .slen).toNat = hash.length + 1 := h.1.symm
  rw [dump, hlen, List.range_succ_eq_map, List.map_cons, List.map_map] at hdump
  exact (List.cons.inj hdump).2

/-- The address of a payload after the prefix `p`, or what the host reports (R85 steps 8 to 11). -/
def payloadResult (p : List Byte) : List Byte → Except SeqError Address
  | [] => .error .truncatedPayload
  | v :: hash =>
    if (versionDecode v).2.toNat ≠ hash.length then .error .versionByteMismatch
    else if 1 < ((versionDecode v).1.setWidth 8).toNat then .error (.kind .unsupportedType)
    else .ok ⟨p, (versionDecode v).1.setWidth 8, hash⟩

theorem runResult_decodePayload {bs : List Byte} (h : s.sbvIs bs) :
    runResult (decodePayload s p) = some (payloadResult p bs) := by
  have hlen : (hostRead s .slen).toNat = bs.length := h.1.symm
  cases bs with
  | nil => simp only [decodePayload, hlen, List.length_nil, if_true]; rfl
  | cons v hash =>
    have hv : hostRead s (.sb 0) = v := by simp [hostRead, h.2 0 (by simp)]
    obtain ⟨u, hvdec, hres0, hres1, hcells⟩ := transactAll_vdec s v
    simp only [decodePayload, hlen, hv, List.length_cons, Nat.succ_ne_zero, if_false, Nat.add_sub_cancel]
    simp only [issue_of_next hvdec, hres0, hres1, hcells, read_tail_of_sbvIs h, payloadResult]
    split_ifs <;> rfl

/-- The result for the groups of a body that verifies (R85 steps 6 to 11): the last eight are dropped, the others
regrouped. -/
def groupsResult (p : List Byte) (gs : List Group) : Except SeqError Address :=
  if gs.length < 8 then .error .truncatedPayload
  else match regroup ((gs.take (gs.length - 8)).map BitVec.toNat) 5 8 false with
    | none => .error (.kind .invalidPadding)
    | some out => payloadResult p (out.map (BitVec.ofNat 8))

/-- A shorter `SLEN` leaves the front of `SBV` (R11). -/
theorem State.sbvIs_take {xs : List Byte} {n : Byte} (h : s.sbvIs xs) (hn : n.toNat ≤ xs.length) :
    ({ s with slen := n } : State).sbvIs (xs.take n.toNat) := by
  obtain ⟨_, hread⟩ := h
  have hlen : (xs.take n.toNat).length = n.toNat := by rw [List.length_take, Nat.min_eq_left hn]
  refine ⟨hlen, fun j hj => ?_⟩
  rw [hlen] at hj
  rw [List.getElem?_take_of_lt hj]
  exact hread j (hj.trans_le hn)

/-- The checksum groups dropped (R85 step 6). -/
theorem State.Holds.dropChecksum (h : s.Holds g gs) (hlong : 8 ≤ gs.length) :
    (({ s with slen := s.slen - 8 } : State).withCmd (encode .rg58)).Holds g (gs.take (gs.length - 8)) := by
  have hslen : gs.length = s.slen.toNat := by simpa using h.sbv.1
  have hdrop : (s.slen - 8).toNat = gs.length - 8 := by bv_omega
  have htake := State.sbvIs_take (n := s.slen - 8) h.sbv (by rw [groupCells_length]; omega)
  rw [hdrop, groupCells, ← List.map_take] at htake
  exact ⟨h.wf, h.gen, h.ok, htake⟩

/-- Groups that do not regroup: RG58's error stands in the status (R85 step 7). -/
theorem transactAll_rg58_invalidPadding (h : s.Holds g gs) (hlong : 8 ≤ gs.length)
    (hr : regroup ((gs.take (gs.length - 8)).map BitVec.toNat) 5 8 false = none) :
    ∃ u, transactAll s [wrSlen (hostRead s .slen - 8), cmd .rg58] = .next u ∧ u.ecode = some .invalidPadding := by
  have hdrop := h.dropChecksum hlong
  exact ⟨_, transactAll_cmd (exec_rg58_invalidPadding hdrop.wf hdrop.sbv hr) [], rfl⟩

/-- The groups of bytes: RG58 leaves the bytes (R85 step 7). -/
theorem transactAll_rg58_of_bytesToGroups {bs : List Byte} (h : s.Holds g gs) (hlong : 8 ≤ gs.length)
    (hbs : bytesToGroups bs = gs.take (gs.length - 8)) :
    ∃ u, transactAll s [wrSlen (hostRead s .slen - 8), cmd .rg58] = .next u ∧ u.ecode = none ∧ u.sbvIs bs := by
  have hdrop := h.dropChecksum hlong
  rw [← hbs] at hdrop
  have hfit := (le_groupCount _).trans (groupCount_le_of_sbvIs hdrop.wf hdrop.sbv)
  exact ⟨_, transactAll_cmd (exec_rg58_of_bytesToGroups hdrop.wf hdrop.sbv) [], rfl,
    State.refilled_sbvIs hdrop.wf hfit⟩

theorem runResult_decodeGroups (h : s.Holds g gs) : runResult (decodeGroups s p) = some (groupsResult p gs) := by
  have hslen : (hostRead s .slen).toNat = gs.length := by simpa [hostRead] using h.sbv.1.symm
  by_cases hshort : gs.length < 8
  · simp only [decodeGroups, groupsResult, hslen, if_pos hshort]; rfl
  · have hlong := Nat.not_lt.1 hshort
    simp only [decodeGroups, groupsResult, hslen, if_neg hshort]
    cases hr : regroup ((gs.take (gs.length - 8)).map BitVec.toNat) 5 8 false with
    | none =>
      obtain ⟨u, hrun, herr⟩ := transactAll_rg58_invalidPadding h hlong hr
      rw [issue_requireError hrun herr]; rfl
    | some out =>
      obtain ⟨bs, hbs, rfl⟩ := regroup_groups_eq_some_iff.1 hr
      obtain ⟨u, hrun, hok, hbytes⟩ := transactAll_rg58_of_bytesToGroups h hlong hbs
      simp only [issue_requireOk hrun hok, map_ofNat_map_toNat, runResult_decodePayload hbytes]

/-- The result for the groups of a body after the prefix `pfx`, where there is one (R85 steps 5 to 11, R87). -/
def prefixedResult (g : GenTable) (pfx : Option (List Byte)) (gs : List Group) : Except SeqError Address :=
  match pfx with
  | none => .error .missingPrefix
  | some p => if polymod g 1 (expandPrefix p ++ gs) = 1 then groupsResult p gs else .error (.kind .checksumMismatch)

/-- The result of the Decoder on a prefix and a body (R85 steps 3 to 11). -/
def decodeResult (g : GenTable) (pfx : Option (List Byte)) (body : List Byte) : Except SeqError Address :=
  if Config.sbDepth < body.length then .error (.kind .capacityExceeded)
  else ((bodyGroups body).mapError fun r => .kind r.kind).bind (prefixedResult g pfx)

theorem decodeResult_of_overflow (g : GenTable) (pfx : Option (List Byte)) {body : List Byte}
    (h : Config.sbDepth < body.length) : decodeResult g pfx body = .error (.kind .capacityExceeded) := if_pos h

theorem decodeResult_of_error (g : GenTable) (pfx : Option (List Byte)) {body : List Byte} {r : Raise}
    (hfit : body.length ≤ Config.sbDepth) (h : bodyGroups body = .error r) :
    decodeResult g pfx body = .error (.kind r.kind) := by
  rw [decodeResult, if_neg (Nat.not_lt.2 hfit), h]; rfl

theorem decodeResult_of_ok (g : GenTable) (pfx : Option (List Byte)) {body : List Byte} {gs : List Group}
    (hfit : body.length ≤ Config.sbDepth) (h : bodyGroups body = .ok gs) :
    decodeResult g pfx body = prefixedResult g pfx gs := by
  rw [decodeResult, if_neg (Nat.not_lt.2 hfit), h]; rfl

/-- Where the Decoder ends in a result, the body fits and has groups. -/
theorem groups_of_decodeResult_ok {g : GenTable} {pfx : Option (List Byte)} {body : List Byte} {a : Address}
    (h : decodeResult g pfx body = .ok a) : body.length ≤ Config.sbDepth ∧ ∃ gs, bodyGroups body = .ok gs := by
  by_cases hfit : body.length ≤ Config.sbDepth
  · cases hbody : bodyGroups body with
    | error r => rw [decodeResult_of_error g pfx hfit hbody] at h; cases h
    | ok gs => exact ⟨hfit, gs, rfl⟩
  · rw [decodeResult_of_overflow g pfx (Nat.not_le.1 hfit)] at h; cases h

/-- The Decoder from its checksum on, the prefix known (R85 steps 5 to 11). -/
theorem runResult_verify (h : s.Holds g gs) :
    runResult (issue s (cmd .pminit :: pushPrefix p ++ [cmd .pmrun, cmd .pmcheck]) fun u =>
      requireOk u (fun _ => .kind .checksumMismatch) fun _ => decodeGroups u p) =
      some (prefixedResult g (some p) gs) := by
  by_cases hone : polymod g 1 (expandPrefix p ++ gs) = 1
  · obtain ⟨u, hverify, hu⟩ := transactAll_verify h hone
    rw [issue_requireOk hverify hu.ok, runResult_decodeGroups hu, prefixedResult, if_pos hone]
  · obtain ⟨u, hverify, herr⟩ := transactAll_verify_mismatch h hone
    rw [issue_requireError hverify herr, prefixedResult, if_neg hone]; rfl

/-- What the Decoder reports is a function of its inputs and the table of terms (R83, R85). -/
theorem runResult_decodeAddress (hw : s.sb.wf = true) (dflt : Option (List Byte)) (str : List Byte) :
    runResult (decodeAddress s dflt str) =
      some (decodeResult s.gen (prefixAndBody dflt str).1 (prefixAndBody dflt str).2) := by
  rcases hsplit : prefixAndBody dflt str with ⟨pfx, body⟩
  by_cases hfit : body.length ≤ Config.sbDepth
  · simp only [decodeAddress, hsplit, if_neg (Nat.not_lt.2 hfit)]
    cases hbody : bodyGroups body with
    | error r =>
      obtain ⟨u, hdecode, herr⟩ := transactAll_b32ds_error hw hfit hbody
      rw [issue_requireError hdecode herr, decodeResult_of_error s.gen pfx hfit hbody]; rfl
    | ok gs =>
      obtain ⟨hcase, hvals⟩ := bodyGroups_eq_ok_iff.1 hbody
      obtain ⟨u, hdecode, hu⟩ := transactAll_b32ds hw hfit hcase hvals
      rw [issue_requireOk hdecode hu.ok, decodeResult_of_ok s.gen pfx hfit hbody]
      cases pfx with
      | none => rfl
      | some p => exact runResult_verify hu
  · rw [decodeResult_of_overflow s.gen pfx (Nat.not_le.1 hfit)]
    simp only [decodeAddress, hsplit, if_pos (Nat.not_le.1 hfit)]; rfl

end

/-- An address decodes alike in upper case (R86). -/
theorem decodeResult_upperCased {g : GenTable} {pfx : Option (List Byte)} {body : List Byte} {a : Address}
    (h : decodeResult g pfx body = .ok a) : decodeResult g pfx (upperCased body) = .ok a := by
  obtain ⟨hfit, gs, hbody⟩ := groups_of_decodeResult_ok h
  have hlen : (upperCased body).length = body.length := List.length_map _
  rw [decodeResult_of_ok g pfx (hlen.trans_le hfit) (bodyGroups_upperCased hbody), ← h,
    decodeResult_of_ok g pfx hfit hbody]

/-- A body that mixes cases fails, unless it is too long already (R85 steps 3 and 4). -/
theorem decodeResult_of_mixesCases (g : GenTable) (pfx : Option (List Byte)) {body : List Byte} (h : MixesCases body) :
    decodeResult g pfx body = .error (.kind
      (if body.length ≤ Config.sbDepth then .mixedCaseError else .capacityExceeded)) := by
  obtain ⟨i, hbody⟩ := bodyGroups_of_mixesCases h
  by_cases hfit : body.length ≤ Config.sbDepth
  · rw [decodeResult_of_error g pfx hfit hbody, if_pos hfit]
  · rw [decodeResult_of_overflow g pfx (Nat.not_le.1 hfit), if_neg hfit]

end Sys2Proof.Machine
end

section
/-! SUPPORT. The two sequences together: the Encoder from two states, and the Decoder on what the Encoder answers,
part by part (R83, R89). -/

namespace Sys2Proof.Machine

/-- The byte of a legal hash length holds it. -/
theorem toNat_ofNat_of_mem_sizeTable {n : Nat} (h : n ∈ sizeTable.map BitVec.toNat) : (BitVec.ofNat 8 n).toNat = n :=
  Nat.mod_eq_of_lt ((le_of_mem_sizeTable h).trans_lt (by decide))

/-- A legal hash length has a size class. -/
theorem sizeOfClass_of_length {n : Nat} (h : n ∈ sizeTable.map BitVec.toNat) :
    ∃ k, sizeOfClass k = BitVec.ofNat 8 n := sizeOfClass_of_mem ((toNat_ofNat_of_mem_sizeTable h).symm ▸ h)

/-- What the Encoder reports is the same from any two states with the same table of terms (R83). -/
theorem runResult_encodeAddress_congr {s s' : State} (hw : s.sb.wf = true) (hw' : s'.sb.wf = true)
    (hgen : s.gen = s'.gen) (pfx : List Byte) (t : Byte) (hash : List Byte) :
    runResult (encodeAddress s pfx t hash) = runResult (encodeAddress s' pfx t hash) := by
  by_cases hlen : hash.length ∈ sizeTable.map BitVec.toNat
  · cases hv : versionEncode t (BitVec.ofNat 8 hash.length) with
    | error k =>
      obtain ⟨u, hrun⟩ := encodeAddress_versionError s pfx hlen hv
      obtain ⟨u', hrun'⟩ := encodeAddress_versionError s' pfx hlen hv
      rw [hrun, hrun']; rfl
    | ok v =>
      obtain ⟨u, hrun⟩ := encodeAddress_ok hw pfx hlen hv
      obtain ⟨u', hrun'⟩ := encodeAddress_ok hw' pfx hlen hv
      rw [hrun, hrun', hgen]; rfl
  · rw [encodeAddress_invalidHashLength s pfx t hlen, encodeAddress_invalidHashLength s' pfx t hlen]; rfl

/-- The groups of an address, their checksum dropped, regroup to its payload (R85 steps 6 and 7, R59). -/
theorem groupsResult_addressGroups (g : GenTable) (p pfx payload : List Byte) :
    groupsResult p (addressGroups g pfx payload) = payloadResult p payload := by
  have hlen := addressGroups_length g pfx payload
  have htake : (addressGroups g pfx payload).take ((addressGroups g pfx payload).length - 8) =
      bytesToGroups payload := by
    rw [hlen, Nat.add_sub_cancel, addressGroups]
    exact List.take_left' (bytesToGroups_length payload)
  rw [groupsResult, if_neg (by omega), htake, regroup_groups_eq_some_iff.2 ⟨payload, rfl, rfl⟩]
  simp only [map_ofNat_map_toNat]

/-- A version byte and the hash of the length it declares are the payload of an address (R79, R85). -/
theorem payloadResult_of_versionEncode (p : List Byte) {t v : Byte} {hash : List Byte}
    (hlen : hash.length ∈ sizeTable.map BitVec.toNat) (hv : versionEncode t (BitVec.ofNat 8 hash.length) = .ok v) :
    payloadResult p (v :: hash) = .ok ⟨p, t, hash⟩ := by
  obtain ⟨k, ht, hk, rfl⟩ := versionEncode_ok_inv hv
  obtain ⟨htype, hsize⟩ := versionDecode_versionByte (ht.trans_lt (by decide)) k
  rw [payloadResult, hsize, htype, hk, toNat_ofNat_of_mem_sizeTable hlen, if_neg (not_not.2 rfl),
    if_neg (Nat.not_lt.2 ht)]

/-- The Decoder on an address of the Encoder's (R89 item 1). -/
theorem runResult_decodeAddress_encoded {s : State} (hw : s.sb.wf = true) (dflt : Option (List Byte))
    {pfx : List Byte} (hpfx : ValidPrefix pfx) {t v : Byte} {hash : List Byte}
    (hlen : hash.length ∈ sizeTable.map BitVec.toNat) (hv : versionEncode t (BitVec.ofNat 8 hash.length) = .ok v) :
    runResult (decodeAddress s dflt (pfx ++ [0x3A] ++ (addressGroups s.gen pfx (v :: hash)).map valueToChar)) =
      some (.ok ⟨pfx, t, hash⟩) := by
  obtain ⟨hlower, _⟩ := hpfx
  have hbody := bodyGroups_map_valueToChar (addressGroups s.gen pfx (v :: hash))
  obtain ⟨_, hvals⟩ := bodyGroups_eq_ok_iff.1 hbody
  have hsplit := prefixAndBody_append dflt pfx (colon_notMem_of_values hvals)
  have hfit := addressGroups_fit (v := v) s.gen pfx hlen
  rw [List.append_assoc, List.singleton_append, runResult_decodeAddress hw, hsplit, hlower,
    decodeResult_of_ok _ _ (by simpa using hfit) hbody, prefixedResult,
    if_pos (polymod_addressGroups s.gen pfx (v :: hash)), groupsResult_addressGroups,
    payloadResult_of_versionEncode pfx hlen hv]

/-- D0's two addresses, from their version bytes (R89 item 5). -/
theorem literalAddresses_eq : ∀ a ∈ literalAddresses, ∃ v, versionEncode a.1 20 = .ok v ∧
    a.2 = literalPrefix ++ [0x3A] ++ (addressGroups pmGen literalPrefix (v :: literalHash)).map valueToChar := by
  decide +kernel

end Sys2Proof.Machine
end

section
/-! The statements of 45_sequences.md: what the Encoder and the Decoder report. -/

namespace Sys2Proof.Machine

/-- Settles O58: the string the Encoder answers is a function of its inputs and the table, and so is the Decoder's
result (`runResult_decodeAddress`). -/
theorem runsDependOnlyOnTheirInputs : Obligations.RunsDependOnlyOnTheirInputs := by
  unfold Obligations.RunsDependOnlyOnTheirInputs
  intro s s' hw hw' hgen
  refine ⟨runResult_encodeAddress_congr hw hw' hgen, fun dflt str => ?_⟩
  rw [runResult_decodeAddress hw, runResult_decodeAddress hw', hgen]

/-- Settles O54: the Encoder's string is the characters of groups that verify and regroup to the version byte and the
hash, and these are what the Decoder reports; D0's addresses are what these groups are under the default terms. -/
theorem decodeOfEncodeIsTheInput : Obligations.DecodeOfEncodeIsTheInput := by
  unfold Obligations.DecodeOfEncodeIsTheInput
  constructor
  · intro s s' dflt pfx t hash hw hw' hgen hpfx ht hlen
    obtain ⟨k, hk⟩ := sizeOfClass_of_length hlen
    have hv := hk ▸ versionEncode_of_le_one ht k
    obtain ⟨u, hrun⟩ := encodeAddress_ok hw pfx hlen hv
    rw [hrun, hgen]
    exact ⟨_, rfl, runResult_decodeAddress_encoded hw' dflt hpfx hlen hv⟩
  · intro s dflt t str hw hgen hmem
    obtain ⟨v, hv, hstr⟩ := literalAddresses_eq _ hmem
    have hlen : literalHash.length ∈ sizeTable.map BitVec.toNat := by decide
    have hpfx : ValidPrefix literalPrefix := by unfold ValidPrefix; decide +kernel
    obtain ⟨u, hrun⟩ := encodeAddress_ok hw literalPrefix hlen hv
    obtain rfl : str = _ := hstr
    rw [hrun, ← hgen]
    exact ⟨rfl, runResult_decodeAddress_encoded hw dflt hpfx hlen hv⟩

/-- Settles O55: the body has the same groups in upper case, and the result depends on the body only through its groups;
a body that mixes cases raises `MixedCaseError` before anything else is looked at but its length. -/
theorem upperCaseAddressDecodesAlike : Obligations.UpperCaseAddressDecodesAlike := by
  unfold Obligations.UpperCaseAddressDecodesAlike
  constructor
  · intro s s' dflt str a hw hw' hgen hok
    rw [runResult_decodeAddress hw, Option.some_inj] at hok
    rw [runResult_decodeAddress hw', prefixAndBody_upperCased, ← hgen]
    exact congrArg some (decodeResult_upperCased hok)
  · intro s dflt str body hw hcolon hstr hmix
    have hsplit : (prefixAndBody dflt str).2 = body := by
      rcases hstr with rfl | ⟨pfx, rfl⟩
      · rw [prefixAndBody_of_notMem dflt hcolon]
      · rw [prefixAndBody_append dflt pfx hcolon]
    rw [runResult_decodeAddress hw, hsplit, decodeResult_of_mixesCases _ _ hmix]

/-- Settles O59: the length is tested before the first transaction, the type by VENC. -/
theorem encodeReportsLengthThenType : Obligations.EncodeReportsLengthThenType := by
  unfold Obligations.EncodeReportsLengthThenType
  refine fun s pfx t hash => ⟨encodeAddress_invalidHashLength s pfx t, fun hlen ht => ?_⟩
  obtain ⟨k, hk⟩ := sizeOfClass_of_length hlen
  obtain ⟨u, hrun⟩ := encodeAddress_versionError s pfx hlen (hk ▸ versionEncode_of_one_lt ht k)
  rw [hrun]; rfl

/-- Settles O60: the body has groups, so the missing prefix is what is reported; and the two strings have the same
prefix and the same body. -/
theorem missingColonUsesTheDefaultPrefix : Obligations.MissingColonUsesTheDefaultPrefix := by
  unfold Obligations.MissingColonUsesTheDefaultPrefix
  refine fun s str hw hcolon => ⟨fun hfit hchars hcase => ?_, fun p dflt => ?_⟩
  · obtain ⟨gs, hbody⟩ := bodyGroups_isOk hcase hchars
    rw [decodeAddressDefault, runResult_decodeAddress hw, prefixAndBody_of_notMem _ hcolon,
      decodeResult_of_ok s.gen _ hfit hbody]
    rfl
  · rw [runResult_decodeAddress hw, runResult_decodeAddress hw, prefixAndBody_of_notMem _ hcolon,
      prefixAndBody_append dflt p hcolon]
    rfl

end Sys2Proof.Machine
end

section
/-! SUPPORT. What a command word leaves behind (R94, R95), which command can raise which kind (R92), and whose `EINFO`
can be an index (R93). -/

namespace Sys2Proof.Machine

/-- A write to `CMD` is one step that runs the word (R8). -/
theorem step_commandWrite {s : State} {w : Byte} {rest : List HostEvent} (h : s.pending = .write 0x000 w :: rest) :
    step s = runWord w { s with pending := rest } := step_write h

/-- Everything a command word can leave: the state it found with the word and an error recorded, or what the command
it encodes leaves, the status clear. -/
theorem runWord_next_cases {w : Byte} {s t : State} (h : runWord w s = .next t) :
    (∃ k info, t = (s.withCmd w).withStatus (some k) info) ∨
      ∃ i, decode w = .ok i ∧ exec i (s.withCmd w) = .next t ∧ t.ecode = none ∧ t.einfo = 0 := by
  cases hw : decode w with
  | ok i =>
    have hexec : exec i (s.withCmd w) = .next t := (runWord_ok hw s).symm.trans h
    rcases exec_cases hexec with hraised | ⟨u, rfl⟩
    · exact .inl hraised
    · exact .inr ⟨i, rfl, hexec, rfl, rfl⟩
  | error r =>
    obtain rfl : _ = t := by simpa [runWord_error hw] using h
    exact .inl ⟨.illegalCommand, 0, rfl⟩

/-- `STATUS` of a failed command: the flag, and the code below it (R9). -/
theorem statusByte_some (k : ErrorKind) : statusByte (some k) = 0x80 ||| k.code.setWidth 8 := by
  cases k <;> decide

/-- Command `i` raises kind `k` in some state with all its cells. -/
def CanRaise (i : Instr) (k : ErrorKind) : Prop :=
  ∃ s t : State, s.sb.wf = true ∧ exec i s = .next t ∧ t.ecode = some k

/-- A state in which the command records the kind shows that it can raise it. -/
theorem canRaise_of_exec {i : Instr} {k : ErrorKind} {info : Byte} {s : State} (hw : s.sb.wf = true)
    (h : exec i s = .next (s.withStatus (some k) info)) : CanRaise i k := ⟨s, _, hw, h, rfl⟩

/-- The state after reset with more cells declared valid than there are (R11). -/
def overfull : State := { State.reset with slen := 255 }

theorem overfull_wf : overfull.sb.wf = true := Memory.afterReset_wf 0

theorem overfull_slen : Config.sbDepth < overfull.slen.toNat := by decide

/-- The state after reset with `xs` loaded (R46). -/
def holding (xs : List Byte) : State := State.reset.loaded xs

theorem holding_wf (xs : List Byte) : (holding xs).sb.wf = true := State.loaded_wf (Memory.afterReset_wf 0) xs

theorem holding_sbvIs {xs : List Byte} (hfit : xs.length ≤ Config.sbDepth) : (holding xs).sbvIs xs :=
  State.loaded_sbvIs (Memory.afterReset_wf 0) hfit

/-- The state after reset with the scalar operands and the accumulator given. -/
def scalars (a0 a1 : Byte) (x : Acc) : State := { State.reset with arg0 := a0, arg1 := a1, c := x }

theorem scalars_wf (a0 a1 : Byte) (x : Acc) : (scalars a0 a1 x).sb.wf = true := Memory.afterReset_wf 0

/-- A command that raises what its groups operand raises can raise both kinds of it: too many cells, and a cell above
31. -/
theorem canRaise_of_groupsOperand {i : Instr}
    (hraise : ∀ s r, groupsOperand s = .error r → exec i s = .next (s.withStatus (some r.kind) r.info)) :
    CanRaise i .capacityExceeded ∧ CanRaise i .invalidValue := by
  have hcell : groupsOperand (holding [32]) = .error ⟨.invalidValue, indexInfo 0⟩ :=
    groupsOperand_invalidValue (v := 32) (holding_wf _) (holding_sbvIs (by decide)) rfl (by decide) (by simp)
  exact ⟨canRaise_of_exec overfull_wf (hraise _ _ (groupsOperand_overflow overfull_slen)),
    canRaise_of_exec (holding_wf _) (hraise _ _ hcell)⟩

theorem canRaise_b32es : CanRaise .b32es .capacityExceeded ∧ CanRaise .b32es .invalidValue :=
  canRaise_of_groupsOperand fun s r hr => by rw [exec_b32es, hr]; rfl

theorem canRaise_pmrun : CanRaise .pmrun .capacityExceeded ∧ CanRaise .pmrun .invalidValue :=
  canRaise_of_groupsOperand fun s r hr => by rw [exec_pmrun, hr]; rfl

/-- RG58 raises what its operand raises, and refuses the padding of a single group: five bits are left over (R60). -/
theorem canRaise_rg58 :
    CanRaise .rg58 .capacityExceeded ∧ CanRaise .rg58 .invalidValue ∧ CanRaise .rg58 .invalidPadding := by
  obtain ⟨hcapacity, hvalue⟩ := canRaise_of_groupsOperand (i := .rg58) fun s r hr => by rw [exec_rg58, hr]; rfl
  have hpadding := exec_rg58_invalidPadding (gs := [0]) (holding_wf _) (holding_sbvIs (by decide)) (by decide)
  exact ⟨hcapacity, hvalue, canRaise_of_exec (holding_wf _) hpadding⟩

/-- B32DS raises `MixedCaseError` on the body "Aa" and `InvalidCharacter` on the body "!" (R53). -/
theorem canRaise_b32ds :
    CanRaise .b32ds .capacityExceeded ∧ CanRaise .b32ds .mixedCaseError ∧ CanRaise .b32ds .invalidCharacter := by
  obtain ⟨_, hcapacity, hcase, hchar, _⟩ := b32dsDecodesTheBuffer
  have hmixed := hcase (holding [0x41, 0x61]) _ 1 0x61 .upper .lower (holding_wf _) (holding_sbvIs (by decide)) rfl
    (by decide) (by decide) (by decide) (by decide)
  have hinvalid := hchar (holding [0x21]) _ 0 0x21 .lower (holding_wf _) (holding_sbvIs (by decide)) (by decide) rfl
    (by decide) (by decide)
  exact ⟨canRaise_of_exec overfull_wf (hcapacity _ overfull_slen), canRaise_of_exec (holding_wf _) hmixed,
    canRaise_of_exec (holding_wf _) hinvalid⟩

/-- VENC raises `UnsupportedLength` on length 0 and `UnsupportedType` on type 2 (R74). -/
theorem canRaise_venc : CanRaise .venc .unsupportedLength ∧ CanRaise .venc .unsupportedType := by
  obtain ⟨_, _, hlength, htype⟩ := vencBuildsTheVersionByte
  exact ⟨canRaise_of_exec (scalars_wf _ _ _) (hlength (scalars 0 0 1) (by decide)),
    canRaise_of_exec (scalars_wf _ _ _) (htype (scalars 2 20 1) (by decide) (by decide))⟩

/-- Every kind R92 lists for a command is raised by it in some state. -/
theorem canRaise_of_mem_kindsOf (i : Instr) : ∀ k ∈ kindsOf i, CanRaise i k := by
  cases i with
  | nop | clr | pminit | vdec => exact List.forall_mem_nil _
  | b32e =>
    obtain ⟨_, _, herror⟩ := b32eEncodesOneValue
    exact List.forall_mem_singleton.2 (canRaise_of_exec (scalars_wf _ _ _) (herror (scalars 32 0 1) (by decide)))
  | b32d =>
    obtain ⟨_, _, herror⟩ := b32dDecodesOneCharacter
    exact List.forall_mem_singleton.2 (canRaise_of_exec (scalars_wf _ _ _) (herror (scalars 0x21 0 1) (by decide)))
  | pmpush =>
    obtain ⟨_, _, herror⟩ := pmpushAbsorbsOneSymbol
    exact List.forall_mem_singleton.2 (canRaise_of_exec (scalars_wf _ _ _) (herror (scalars 32 0 1) (by decide)))
  | pmcheck =>
    exact List.forall_mem_singleton.2 (canRaise_of_exec (scalars_wf 0 0 0) (exec_pmcheck_of_ne_one (by decide)))
  | rg85 => exact List.forall_mem_singleton.2 (canRaise_of_exec overfull_wf (exec_rg85_overflow (by decide)))
  | pmembed => exact List.forall_mem_singleton.2 (canRaise_of_exec overfull_wf (exec_pmembed_overflow (by decide)))
  | b32es => simpa [kindsOf] using canRaise_b32es
  | pmrun => simpa [kindsOf] using canRaise_pmrun
  | rg58 => simpa [kindsOf] using canRaise_rg58
  | b32ds => simpa [kindsOf] using canRaise_b32ds
  | venc => simpa [kindsOf] using canRaise_venc

/-- A command that only checks a 5-bit scalar leaves `EINFO` 0: there is no index to name. -/
theorem einfo_of_scalarGroup {i : Instr} {s t : State} (f : Group → State)
    (hexec : exec i s = complete s ((scalarGroup s.arg0).bind fun v => .ok (f v))) (h : exec i s = .next t) :
    t.einfo = 0 := by
  rcases complete_cases (hexec.symm.trans h) with ⟨r, hr, rfl⟩ | ⟨_, _, rfl⟩
  · rcases scalarGroup_cases s.arg0 with ⟨_, hv⟩ | ⟨_, hv⟩
    · rw [hv] at hr; cases hr
    · rw [hv] at hr; cases hr; rfl
  · rfl

/-- The commands whose operand is one scalar leave `EINFO` 0, whether or not they raise. -/
theorem einfo_of_scalarCommand {i : Instr} {s t : State} (hi : i ∈ [.b32e, .b32d, .pmpush])
    (h : exec i s = .next t) : t.einfo = 0 := by
  simp only [List.mem_cons, List.not_mem_nil, or_false] at hi
  rcases hi with rfl | rfl | rfl
  · exact einfo_of_scalarGroup (fun v => { s with res0 := valueToChar v }) rfl h
  · obtain ⟨_, hok, herror⟩ := b32dDecodesOneCharacter
    cases hv : charToValue s.arg0 with
    | none => cases (herror s hv).symm.trans h; rfl
    | some v => cases (hok s v hv).symm.trans h; rfl
  · exact einfo_of_scalarGroup (fun v => { s with c := pmStep s.gen s.c v }) rfl h

/-- A command that can raise an indexed kind reads the valid cells or one scalar (R92, R93). -/
theorem bufferCommand_or_scalarCommand (i : Instr) : ∀ k ∈ kindsOf i, k ∈ indexedKinds →
    i ∈ [.b32ds, .b32es, .rg58, .pmrun] ∨ i ∈ [.b32e, .b32d, .pmpush] := by
  cases i <;> decide

end Sys2Proof.Machine
end

section
/-! The statements of 60_exceptions.md: what a failed and a successful command word leave, the kinds of each command,
and the index in `EINFO`. -/

namespace Sys2Proof.Machine

/-- Settles O44: of what a command word can leave (`runWord_next_cases`) only the raise has an error kind. -/
theorem failedCommandChangesOnlyTheStatus : Obligations.FailedCommandChangesOnlyTheStatus := by
  unfold Obligations.FailedCommandChangesOnlyTheStatus
  intro s t rest w k hpending hstep hfail
  rcases runWord_next_cases ((step_commandWrite hpending).symm.trans hstep) with
    ⟨k', info, rfl⟩ | ⟨_, _, _, hok, _⟩
  · obtain rfl : k' = k := Option.some.inj hfail
    exact ⟨⟨info, rfl⟩, statusByte_some k'⟩
  · rw [hok] at hfail
    cases hfail

/-- Settles O45: of what a command word can leave only the completion of a legal one has no error kind, and no command
changes `CMD`. -/
theorem successfulCommandClearsTheStatus : Obligations.SuccessfulCommandClearsTheStatus := by
  unfold Obligations.SuccessfulCommandClearsTheStatus
  intro s t rest w hpending hstep hok
  rcases runWord_next_cases ((step_commandWrite hpending).symm.trans hstep) with
    ⟨_, _, rfl⟩ | ⟨i, hw, hexec, _, hinfo⟩
  · cases hok
  · obtain ⟨hcmd, _⟩ := exec_frame hexec
    exact ⟨⟨i, hw⟩, hcmd, hinfo, hok ▸ rfl⟩

/-- Settles O46: a raise fits its command (`Raise.Fits`), and each kind listed has a state that raises it. -/
theorem commandsRaiseExactlyTheirKinds : Obligations.CommandsRaiseExactlyTheirKinds := by
  unfold Obligations.CommandsRaiseExactlyTheirKinds
  refine ⟨fun i s t k h hfail => ?_, canRaise_of_mem_kindsOf⟩
  rcases exec_next_cases h with ⟨r, fits, rfl⟩ | ⟨_, _, rfl⟩
  · obtain rfl : r.kind = k := Option.some.inj hfail
    exact fits.kind
  · cases hfail

/-- Settles O47: a nonzero `EINFO` is the index of a raise that fits its command (`Raise.Fits`), and of the commands
with an indexed kind the scalar ones leave 0. -/
theorem einfoIsTheIndexOfAValidCell : Obligations.EinfoIsTheIndexOfAValidCell := by
  unfold Obligations.EinfoIsTheIndexOfAValidCell
  intro i s t h hne
  rcases exec_next_cases h with ⟨r, fits, rfl⟩ | ⟨_, _, rfl⟩
  · obtain ⟨hindexed, hlt, hle⟩ := fits.info.resolve_left hne
    have hbuffer := (bufferCommand_or_scalarCommand i _ fits.kind hindexed).resolve_right
      fun hscalar => hne (einfo_of_scalarCommand hscalar h)
    exact ⟨by simpa using hbuffer, by simpa [indexedKinds] using hindexed, hlt, hle⟩
  · exact absurd rfl hne

end Sys2Proof.Machine
end

section
/-! The statements of 70_reset_and_hazards.md: the state after the reset event, and that nothing the host or a command
does stops the block. -/

namespace Sys2Proof.Machine

/-- A step on a reset event resets the block (R102). -/
theorem step_reset {s : State} {rest : List HostEvent} (h : s.pending = .reset :: rest) :
    step s = .next (resetBlock { s with pending := rest }) := step_pending h

/-- Every command answers a next state: with an error recorded or with its writes done, it ends (R107). -/
theorem exec_total (i : Instr) (s : State) : ∃ t, exec i s = .next t := by
  obtain ⟨e, hexec⟩ := exec_eq_complete i s
  rw [hexec]
  exact complete_next s e

/-- Every step answers a next state (R100): of what a step can be (`step_cases`) only a write is more than one
assignment to the state, and a write answers whatever the offset names. -/
theorem step_total (s : State) : ∃ t, step s = .next t := by
  obtain ⟨_, hstep⟩ | ⟨rest, ⟨off, v, _, hstep⟩ | ⟨off, _, hstep⟩ | ⟨_, hstep⟩⟩ := step_cases s
  · exact ⟨_, hstep⟩
  · obtain ⟨t, hwrite, _⟩ := hostWrite_answer v { s with pending := rest } (HostReg.ofOffset off)
    exact ⟨t, hstep.trans hwrite⟩
  · exact ⟨_, hstep⟩
  · exact ⟨_, hstep⟩

/-- Settles O12: the step is the reset of the block, whose registers have R18's values by definition and whose buffer
has its cells whatever they hold. -/
theorem resetEventGivesTheResetState : Obligations.ResetEventGivesTheResetState := by
  unfold Obligations.ResetEventGivesTheResetState
  intro s rest hpending
  exact ⟨_, Memory.afterReset (s.resets + 1), step_reset hpending, Memory.afterReset_wf _, rfl⟩

/-- Settles O14: the two totalities, of a step (`step_total`) and of a command (`exec_total`). -/
theorem everyStepAnswersANextState : Obligations.EveryStepAnswersANextState := by
  unfold Obligations.EveryStepAnswersANextState
  exact ⟨step_total, exec_total⟩

end Sys2Proof.Machine
end
